-- ==== Sys2Proof/Word.lean ====
section
/-! DEFINITION. The data the block moves: bytes (spec/00_scope.md R6, spec/30_encoding.md R70) and lists of them. -/

namespace Sys2Proof

/-- Every character of the protocol is one byte (R70). -/
abbrev Byte := BitVec 8

/-- A byte string: a line, a payload, a token, a reply. -/
abbrev Bytes := List Byte

end Sys2Proof
end

