-- ==== Sys2Proof/Config.lean ====
section
/-! DEFINITION. What a build fixes (spec/00_scope.md R5): the parameters, as plain data that State holds, so that a
statement over all states is a statement over all configurations; and the free value of the ADC readings. -/

namespace Sys2Proof

/-- The id of an ADC channel, as `adcRead` takes it (R5 `CH[0..4]`, OPEN). -/
abbrev ChannelId := Nat

/-- The build-time parameters of R5. None changes at run time. N_CHANNELS = 5, LEVEL_MIN = 0, LEVEL_MAX = 255 and
SEPARATORS have the values R5 states and stand in the operations that use them. -/
structure Config where
  /-- NODE_ID, the address of this device (R24). -/
  nodeId : Byte
  /-- VERSION_STRING, the data of the `v` reply. -/
  version : Bytes
  /-- IN_LINE_MAX, the size of LINE. -/
  inLineMax : Nat
  /-- OUT_LINE_MAX, the size of OUT. -/
  outLineMax : Nat
  /-- CH[0..4], the channels A to E in their order. -/
  channels : Vector ChannelId 5
  /-- ADC_MAX, the largest reading. -/
  adcMax : Nat
  /-- ERR_L_NOVALUE (R86). -/
  errLNoValue : Bytes
  /-- ERR_W_MISSING (R86). -/
  errWMissing : Bytes
  /-- ERR_UNKNOWN (R86). -/
  errUnknown : Bytes
  /-- REPLY_BEFORE_IND_OFF (spec/92_eei_decisions.md D22). -/
  replyBeforeIndOff : Bool
  deriving DecidableEq, Repr

/-- The configuration State.reset holds: the spec's defaults where it gives them (ADC_MAX, the error texts of R86,
REPLY_BEFORE_IND_OFF), spec/95_test_vectors.md's 'A' and "V1" for NODE_ID and VERSION_STRING, and chosen buffer sizes
and channel ids. DESIGN CHOICE, unsafe for a claim about State.reset alone: the spec leaves the last four OPEN (log 1). -/
def Config.standard : Config where
  nodeId := 0x41
  version := [0x56, 0x31]
  inLineMax := 256
  outLineMax := 256
  channels := #v[0, 1, 2, 3, 4]
  adcMax := 65535
  errLNoValue := [0x65, 0x72, 0x72, 0x6F, 0x72, 0x3A, 0x20, 0x6E, 0x6F, 0x20, 0x76, 0x61, 0x6C, 0x75, 0x65]
  errWMissing := [0x65, 0x72, 0x72, 0x6F, 0x72, 0x3A, 0x20, 0x6D, 0x69, 0x73, 0x73, 0x69, 0x6E, 0x67, 0x20,
    0x6C, 0x65, 0x76, 0x65, 0x6C, 0x20, 0x61, 0x6E, 0x64, 0x20, 0x6F, 0x6E, 0x2F, 0x6F, 0x66, 0x66, 0x20,
    0x66, 0x6C, 0x61, 0x67]
  errUnknown := [0x65, 0x72, 0x72, 0x6F, 0x72, 0x3A, 0x20, 0x55, 0x6E, 0x6B, 0x6E, 0x6F, 0x77, 0x6E, 0x20,
    0x63, 0x6F, 0x6D, 0x6D, 0x61, 0x6E, 0x64]
  replyBeforeIndOff := true

/-- FREE VALUE: the HAL's answer to the n-th `adcRead` whose answer the environment does not fix. The spec calls each
reading a draw, under no law but its range (spec/10_state.md R33, spec/93_implementation_defined.md U6); the range is
imposed where it is used (`boundReading`). It has no body: no proof can see its value (log 5). -/
opaque Config.adcDraw : Nat → Nat

end Sys2Proof
end

