-- ==== Sys2Proof/Machine/Chars.lean ====
section
/-! DEFINITION. The byte values of the characters the block interprets (spec/30_encoding.md R70: ASCII, which the
spec itself takes from general knowledge, spec/93_implementation_defined.md K1; log 16). -/

namespace Sys2Proof.Machine

/-- `/`, the start marker and the first byte of every reply. -/
def chSlash : Byte := 0x2F
/-- `!`, the end marker. -/
def chBang : Byte := 0x21
/-- `#`, the reply end. -/
def chHash : Byte := 0x23
/-- LF, the line terminator. -/
def chLF : Byte := 0x0A
/-- CR, an ordinary byte of a line. -/
def chCR : Byte := 0x0D
/-- `0`, the reply address and the first digit. -/
def chZero : Byte := 0x30
/-- The space, an argument separator and the byte after the opcode of a reply. -/
def chSpace : Byte := 0x20
/-- `,`, an argument separator. -/
def chComma : Byte := 0x2C
/-- The opcode `v`. -/
def chV : Byte := 0x76
/-- The opcode `L`. -/
def chL : Byte := 0x4C
/-- The opcode `a`. -/
def chA : Byte := 0x61
/-- The opcode `w`. -/
def chW : Byte := 0x77
/-- NUL, the terminator that truncation writes and that ends the scanned window. -/
def chNul : Byte := 0x00
/-- `+`, an optional sign of a numeric argument. -/
def chPlus : Byte := 0x2B
/-- `-`, an optional sign of a numeric argument. -/
def chMinus : Byte := 0x2D

/-- The set SEPARATORS of R5: space and comma. -/
def isSeparator (b : Byte) : Bool := b == chSpace || b == chComma

/-- The bytes `num` skips at the start of a token (R127). -/
def isBlank (b : Byte) : Bool :=
  b == 0x09 || b == 0x0A || b == 0x0B || b == 0x0C || b == 0x0D || b == 0x20

/-- A decimal digit, 0x30 to 0x39 (R70, R127). -/
def isDigit (b : Byte) : Bool := decide (0x30 ≤ b.toNat) && decide (b.toNat ≤ 0x39)

/-- The bytes a payload may hold: any but `!`, NUL and LF (R72). -/
def isPayloadByte (b : Byte) : Bool := b != chBang && b != chNul && b != chLF

end Sys2Proof.Machine
end

