-- ==== Sys2Proof/Machine/Operands.lean ====
section
/-! DEFINITION. Every operand form of the commands: the tokenizer and the argument primitives of
spec/41_dispatcher.md R125 to R131. -/

namespace Sys2Proof.Machine

/-- The tokenizer's scan: `cur` is the run of non-separators read so far and not yet ended. -/
def tokensFrom (cur : Bytes) : Bytes → List Bytes
  | [] => if cur = [] then [] else [cur]
  | b :: rest =>
    if isSeparator b then
      if cur = [] then tokensFrom [] rest else cur :: tokensFrom [] rest
    else tokensFrom (cur ++ [b]) rest

/-- R125: the maximal non-empty runs of non-separators of the argument text, in order. -/
def tokens (text : Bytes) : List Bytes := tokensFrom [] text

/-- The value of a run of decimal digits, most significant first (R127). -/
def digitsValue (ds : Bytes) : Nat := ds.foldl (fun v d => 10 * v + (d.toNat - 0x30)) 0

/-- The digits a token starts with, as a number (the last loop of R127). -/
def leadingNat (t : Bytes) : Nat := digitsValue (t.takeWhile isDigit)

/-- The optional sign and the digits after it (R127, after the blanks). -/
def signedNum : Bytes → Int
  | [] => 0
  | c :: rest =>
    if c = chMinus then -(leadingNat rest : Int)
    else if c = chPlus then (leadingNat rest : Int)
    else (leadingNat (c :: rest) : Int)

/-- R127, parse-or-zero: an unbounded integer (R126). -/
def num (tok : Bytes) : Int := signedNum (tok.dropWhile isBlank)

/-- R128: the level, clamped to LEVEL_MIN..LEVEL_MAX = 0..255. -/
def clamp (v : Int) : BitVec 8 := if v < 0 then 0 else if 255 < v then 255 else BitVec.ofInt 8 v

/-- R129: bit 0 of the mathematical integer, for negative integers too. -/
def lsb (v : Int) : Bool := v % 2 == 1

/-- R130: the truth value of `w`'s flag. -/
def truth (v : Int) : Bool := v != 0

/-- The digit byte of a number below ten. -/
def digitByte (n : Nat) : Byte := BitVec.ofNat 8 (0x30 + n)

/-- The decimal spelling with at most `fuel` digits put before `acc`. -/
def decOnto : Nat → Nat → Bytes → Bytes
  | 0, _, acc => acc
  | fuel + 1, n, acc =>
    if n < 10 then digitByte n :: acc else decOnto fuel (n / 10) (digitByte (n % 10) :: acc)

/-- R131: the shortest decimal spelling, no sign, no leading zero. -/
def dec (n : Nat) : Bytes := decOnto (n + 1) n []

end Sys2Proof.Machine
end

