-- ==== Sys2Proof/Machine/Params.lean ====
section
/-! DEFINITION. The constraints on the build-time parameters (spec/00_scope.md R5, spec/30_encoding.md R84, R86). A
configuration that breaks one is refused (spec/60_exceptions.md R207). -/

namespace Sys2Proof.Machine

/-- `needle` stands somewhere in the text. -/
def hasInfix (needle : Bytes) : Bytes → Bool
  | [] => needle.isEmpty
  | b :: rest => needle.isPrefixOf (b :: rest) || hasInfix needle rest

/-- The word `error`, which every error reply holds (R86, R193). -/
def txtError : Bytes := [0x65, 0x72, 0x72, 0x6F, 0x72]
/-- The words `no value` (R86). -/
def txtNoValue : Bytes := [0x6E, 0x6F, 0x20, 0x76, 0x61, 0x6C, 0x75, 0x65]
/-- The words `missing level and on/off flag` (R86). -/
def txtMissing : Bytes :=
  [0x6D, 0x69, 0x73, 0x73, 0x69, 0x6E, 0x67, 0x20, 0x6C, 0x65, 0x76, 0x65, 0x6C, 0x20, 0x61, 0x6E, 0x64, 0x20,
   0x6F, 0x6E, 0x2F, 0x6F, 0x66, 0x66, 0x20, 0x66, 0x6C, 0x61, 0x67]
/-- The words `Unknown command` (R86). -/
def txtUnknown : Bytes :=
  [0x55, 0x6E, 0x6B, 0x6E, 0x6F, 0x77, 0x6E, 0x20, 0x63, 0x6F, 0x6D, 0x6D, 0x61, 0x6E, 0x64]

/-- A text that keeps the reply's framing unambiguous: no NUL, LF or `#` (R5, R86). -/
def isReplyText (t : Bytes) : Bool := t.all fun b => b != chNul && b != chLF && b != chHash

/-- The properties R86 asks of an error text with the given diagnostic. -/
def errorTextOk (diagnostic text : Bytes) : Bool :=
  hasInfix txtError text && hasInfix diagnostic text && isReplyText text

/-- The values NODE_ID may have (R5, spec/92_eei_decisions.md D2). -/
def nodeIdOk (b : Byte) : Bool :=
  b != chNul && b != chLF && b != chCR && b != chSlash && b != chBang && b != chZero

/-- The data of the longest reply, in bytes (R84): 5 spelled readings and 4 spaces among the candidates. -/
def longestData (c : Config) : Nat :=
  max c.version.length (max c.errLNoValue.length (max (5 * (dec c.adcMax).length + 4)
    (max 3 (max c.errWMissing.length c.errUnknown.length))))

/-- Every constraint of R5's table holds. -/
def configOk (c : Config) : Bool :=
  nodeIdOk c.nodeId && isReplyText c.version && decide (3 ≤ c.inLineMax)
    && decide (6 + longestData c ≤ c.outLineMax)
    && errorTextOk txtNoValue c.errLNoValue && errorTextOk txtMissing c.errWMissing
    && errorTextOk txtUnknown c.errUnknown

end Sys2Proof.Machine
end

