-- ==== Sys2Proof/Syntax.lean ====
section
/-! DEFINITION. The instructions: one constructor per row of spec/opcode_table.json. An instruction is a command
carried in a frame's payload (spec/00_scope.md R2), its operands the tokens of the argument text
(spec/41_dispatcher.md R125): byte strings, converted by the meaning that reads them (spec/30_encoding.md R77, R78). -/

namespace Sys2Proof

/-- One argument token: a non-empty byte string without separators (R125). -/
abbrev Token := Bytes

/-- The commands, by the path of spec/42_commands.md R149 they take. -/
inductive Instr where
  /-- NOP_EMPTY: the empty payload (spec/40_frame_extractor.md R108). -/
  | nopEmpty
  /-- v: report the version; every token is ignored (R141). -/
  | v (args : List Token)
  /-- L with a value token; further tokens ignored (R142). -/
  | l (value : Token) (rest : List Token)
  /-- L_NOVALUE: L without a token (R143). -/
  | lNoValue
  /-- a: read the five channels; every token is ignored (R144). -/
  | a (args : List Token)
  /-- w with the output on: the level, the optional flag, further tokens ignored (R145). -/
  | w (level : Token) (flag : Option Token) (rest : List Token)
  /-- w_OFF: w with a false flag (R146). -/
  | wOff (level flag : Token) (rest : List Token)
  /-- w_MISSING: w without a token (R147). -/
  | wMissing
  /-- UNKNOWN: any other opcode; every token is ignored (R148). -/
  | unknown (op : Byte) (args : List Token)
  deriving DecidableEq, Repr

end Sys2Proof
end

