-- ==== Sys2Proof/Machine/State.lean ====
section
/-! DEFINITION. The machine's state as plain data: every piece of state spec/10_state.md names, the configuration, and
the environment's part of a run; the reasons a step can stop; the state after reset. -/

namespace Sys2Proof.Machine

/-- The values of the control state register `pc` (R22). -/
inductive Ctrl where
  | boot0
  | boot1
  | boot2
  | wait
  | extract
  | dispBegin
  /-- Issuing the k-th transaction of PLAN, or assembling the reply when PLAN has no k-th. -/
  | exec (k : Nat)
  | reply
  | dispEnd
  deriving DecidableEq, Repr

/-- FRES with the cause of a Malformed frame (R34; spec/40_frame_extractor.md R103, R105, R106). -/
inductive FrameResult where
  | addressed
  | notForMe
  | malformedNoStart
  | malformedNoEnd
  deriving DecidableEq, Repr

/-- The requests of the HAL channel (R20; spec/43_sequencer.md R177). -/
inductive HalReq where
  | referenceInit
  | referenceClose
  | adcInit
  | adcClose
  | adcRead (ch : ChannelId)
  | dacSetLevel (level : BitVec 8)
  | referenceOutputEnable (on : Bool)
  | indicatorSet (on : Bool)
  deriving DecidableEq, Repr

/-- The events of TRACE, one per completed transaction (R35). -/
inductive Event where
  | readLine (line : Bytes)
  | writeLine (reply : Bytes)
  | refInit
  | refClose
  | adcInit
  | adcClose
  | adcRead (ch : ChannelId) (reading : Nat)
  | dacSetLevel (level : BitVec 8)
  | refOutEn (on : Bool)
  | indSet (on : Bool)
  deriving DecidableEq, Repr

/-- What the environment lets happen in one step (spec/60_exceptions.md R207, spec/70_reset_and_hazards.md R220,
R225; log 7). -/
inductive EnvMove where
  /-- The controller takes its step; the transaction it issues completes. -/
  | proceed
  /-- The transaction the block issues never completes (R207): the block waits for ever. -/
  | hang
  /-- A reset (R225, first row). -/
  | reset
  deriving DecidableEq, Repr

/-- The session state (R25, R26). -/
structure Session where
  /-- OVERRIDE. -/
  override : Bool
  /-- IND. -/
  ind : Bool
  deriving DecidableEq, Repr

/-- Peripheral State (R27). -/
structure Periph where
  /-- REF_ON. -/
  refOn : Bool
  /-- ADC_ON. -/
  adcOn : Bool
  /-- DAC_OUT_ON. -/
  dacOutOn : Bool
  /-- DAC_LEVEL. -/
  dacLevel : BitVec 8
  deriving DecidableEq, Repr

/-- The working registers of one cycle (R34). -/
structure Work where
  /-- S_IDX. -/
  sIdx : Nat
  /-- E_IDX. -/
  eIdx : Nat
  /-- FRES. -/
  fres : FrameResult
  /-- PAY_LO. -/
  payLo : Nat
  /-- PAY_LEN. -/
  payLen : Nat
  /-- OP. -/
  op : Byte
  /-- ARGS. -/
  args : List Token
  /-- PLAN. -/
  plan : List HalReq
  /-- K. -/
  k : Nat
  deriving DecidableEq, Repr

/-- The environment's part of a run, the MODEL's own fields: what the host, the HAL and the reset input do
(spec/00_scope.md R10, spec/70_reset_and_hazards.md R235; logs 5, 6, 7). -/
structure Env where
  /-- The lines the host will deliver, first first; none left is a host that delivers nothing. -/
  lines : List Bytes
  /-- The HAL's answers to the coming `adcRead`s as far as they are fixed, first first. -/
  readings : List Nat
  /-- How many readings were drawn as free values: what `Config.adcDraw` is applied to. -/
  draws : Nat
  /-- One move per step; none left means the controller proceeds. -/
  schedule : List EnvMove
  deriving DecidableEq, Repr

/-- A buffer's contents (spec/20_memory.md R50): address and byte pairs. An unlisted address holds no value
(R31, R36; log 3). -/
abbrev Memory := List Host.Cell

/-- The canonical form: addresses strictly rising. (No entry can equal what an unlisted address reads as, for that is
no byte.) -/
abbrev Memory.wf (m : Memory) : Prop := m.Pairwise (fun c d => c.1 < d.1)

/-- The block's state. -/
structure State where
  /-- The build-time parameters, NODE_ID (R24) among them. -/
  cfg : Config
  /-- The control state register. -/
  pc : Ctrl
  session : Session
  periph : Periph
  /-- LINE (R31). -/
  line : Memory
  /-- LINE_LEN (R31). -/
  lineLen : Nat
  /-- OUT (R32). -/
  out : Memory
  /-- OUT_LEN (R32). -/
  outLen : Nat
  /-- RD[0..4] (R33). -/
  rd : Vector Nat 5
  work : Work
  /-- TRACE (R35). -/
  trace : List Event
  env : Env
  deriving DecidableEq, Repr

/-- Why the machine stops with a fault. -/
inductive Fault where
  /-- A byte of LINE that holds no value was read (R31, R36, spec/93_implementation_defined.md U8). Raised by the
  buffer read in EXTRACT and DISP_BEGIN, in states no run reaches. Safe. -/
  | lineByteHoldsNoValue
  /-- A byte of OUT that holds no value was read (R32, R36, U8). Raised by the buffer read in REPLY, in states no run
  reaches. Safe. -/
  | outByteHoldsNoValue
  deriving DecidableEq, Repr

/-- Why the machine gives no meaning. -/
inductive Refusal where
  /-- An instruction without a meaning; no arm of `exec` answers so. Safe. -/
  | notModelled (mnemonic : String)
  /-- The configuration breaks a constraint of spec/00_scope.md R5: spec/60_exceptions.md R207 has it refused. Raised
  by every step. Safe. -/
  | invalidConfig
  /-- The host's next line is longer than IN_LINE_MAX or holds LF: R207, spec/70_reset_and_hazards.md R224, U9.
  Raised in WAIT. Safe. -/
  | lineNotDeliverable
  /-- An index of LINE at or past IN_LINE_MAX (spec/20_memory.md R54). Raised by a buffer access, in states no run
  reaches. Safe. -/
  | lineIndexOutOfRange
  /-- An index of OUT at or past OUT_LINE_MAX (R54). Raised by a buffer access, in states no run reaches. Safe. -/
  | outIndexOutOfRange
  /-- `adcRead` with the reference or the ADC off (spec/43_sequencer.md R179, U15). Raised in EXEC(k), in states no run
  reaches. Safe. -/
  | adcReadUnpowered
  /-- A sixth `adcRead` of one PLAN, for which RD[0..4] has no register (R33). Raised in EXEC(k), in states no run
  reaches. Safe. -/
  | noReadingRegister
  /-- `exec` was asked for in a control state that executes no command; `step` never asks so (log 9). Safe. -/
  | notInDispatch
  deriving DecidableEq, Repr

/-- The machine right after reset (R36): `pc`, OVERRIDE, REF_ON, ADC_ON, DAC_OUT_ON and TRACE as the spec says. Where
R36 says none (IND, DAC_LEVEL, the lengths, RD, the working registers) the value is the model's, DESIGN CHOICE, log 2;
the buffers list nothing (log 3); the parameters are `Config.standard` (log 1); the environment is silent (logs 5 to 7). -/
def State.reset : State where
  cfg := Config.standard
  pc := .boot0
  session := { override := false, ind := false }
  periph := { refOn := false, adcOn := false, dacOutOn := false, dacLevel := 0 }
  line := []
  lineLen := 0
  out := []
  outLen := 0
  rd := #v[0, 0, 0, 0, 0]
  work := { sIdx := 0, eIdx := 0, fres := .malformedNoStart, payLo := 0, payLen := 0, op := 0, args := [],
            plan := [], k := 0 }
  trace := []
  env := { lines := [], readings := [], draws := 0, schedule := [] }

end Sys2Proof.Machine
end

