-- ==== Sys2Proof/Machine/Ops.lean ====
section
/-! DEFINITION. The named operations over the buffers, the registers and the three transaction channels: byte accesses
(spec/20_memory.md R50 to R54), HAL transactions (spec/43_sequencer.md R177), line input and reply output
(spec/70_reset_and_hazards.md R224, spec/41_dispatcher.md R121), reset (R220). The block has no exceptions to take and
none to return from (spec/60_exceptions.md R191, R200). -/

namespace Sys2Proof.Machine

/-- An outcome that carries something other than a state. -/
abbrev Result (α : Type) := Host.Outcome α Fault Refusal

/-- Go on with what the first outcome gave; a stop stays. -/
def andThen {α β : Type} (x : Result α) (f : α → Result β) : Result β :=
  match x with
  | .next a => f a
  | .fault e => .fault e
  | .refused r => .refused r

/-- One byte of a buffer; none where no value is held. -/
def Memory.byte? (m : Memory) (a : Nat) : Option Byte :=
  match m with
  | [] => none
  | (b, v) :: rest => if a = b then some v else Memory.byte? rest a

/-- Write one byte, keeping the addresses rising. -/
def Memory.set (m : Memory) (a : Nat) (v : Byte) : Memory :=
  match m with
  | [] => [(a, v)]
  | (b, u) :: rest =>
    if a < b then (a, v) :: (b, u) :: rest
    else if a = b then (a, v) :: rest
    else (b, u) :: Memory.set rest a v

/-- Write bytes at `lo`, `lo + 1`, ... in increasing index order (R52). -/
def Memory.setBytes (m : Memory) (lo : Nat) : Bytes → Memory
  | [] => m
  | v :: rest => Memory.setBytes (m.set lo v) (lo + 1) rest

/-- A buffer: its size and the names of its stops. -/
structure Space where
  size : Nat
  outOfRange : Refusal
  holdsNoValue : Fault
  deriving DecidableEq, Repr

/-- The space LINE (R50). -/
def lineSpace (c : Config) : Space where
  size := c.inLineMax
  outOfRange := .lineIndexOutOfRange
  holdsNoValue := .lineByteHoldsNoValue

/-- The space OUT (R50). -/
def outSpace (c : Config) : Space where
  size := c.outLineMax
  outOfRange := .outIndexOutOfRange
  holdsNoValue := .outByteHoldsNoValue

/-- Read one byte (R54): past the size it is refused, where no value is held it faults. -/
def readByte (sp : Space) (m : Memory) (a : Nat) : Result Byte :=
  if a < sp.size then
    match m.byte? a with
    | some v => .next v
    | none => .fault sp.holdsNoValue
  else .refused sp.outOfRange

/-- Read `n` bytes from `lo` on, in increasing index order. -/
def readBytes (sp : Space) (m : Memory) (lo : Nat) : Nat → Result Bytes
  | 0 => .next []
  | n + 1 =>
    andThen (readByte sp m lo) fun v =>
      andThen (readBytes sp m (lo + 1) n) fun rest => .next (v :: rest)

/-- Write bytes from `lo` on; a write past the size is refused (R54). -/
def writeBytes (sp : Space) (m : Memory) (lo : Nat) (vs : Bytes) : Result Memory :=
  if lo + vs.length ≤ sp.size then .next (m.setBytes lo vs) else .refused sp.outOfRange

/-- Set the control state register. -/
def goto (c : Ctrl) (s : State) : State := { s with pc := c }

/-- Append one event to TRACE (R35). -/
def record (e : Event) (s : State) : State := { s with trace := s.trace ++ [e] }

/-- A completed `indicatorSet(b)`: IND and the event (R26, R177). -/
def indicate (b : Bool) (s : State) : State :=
  record (.indSet b) { s with session := { s.session with ind := b } }

/-- A reading within 0..ADC_MAX (R33). -/
def boundReading (adcMax raw : Nat) : Nat := raw % (adcMax + 1)

/-- The HAL's answer to the next `adcRead`: the environment's next fixed answer, else the free value (log 5). -/
def nextReading (s : State) : Nat :=
  match s.env.readings with
  | r :: _ => boundReading s.cfg.adcMax r
  | [] => boundReading s.cfg.adcMax (Config.adcDraw s.env.draws)

/-- The environment after it gave that answer. -/
def Env.afterReading (e : Env) : Env :=
  match e.readings with
  | _ :: rest => { e with readings := rest }
  | [] => { e with draws := e.draws + 1 }

/-- A completed `adcRead(ch)` whose reading goes to RD[i] (R33, R177). -/
def storeReading (ch : ChannelId) (i : Nat) (s : State) : State :=
  record (.adcRead ch (nextReading s))
    { s with rd := s.rd.setIfInBounds i (nextReading s), env := s.env.afterReading }

/-- R177: a HAL transaction completes. `i` is the place of an `adcRead` among the reads of its plan. `adcRead` with
the reference or the ADC off has no meaning (R179). -/
def completeHal (q : HalReq) (i : Nat) (s : State) : Result State :=
  match q with
  | .referenceInit => .next (record .refInit { s with periph := { s.periph with refOn := true } })
  | .referenceClose => .next (record .refClose { s with periph := { s.periph with refOn := false } })
  | .adcInit => .next (record .adcInit { s with periph := { s.periph with adcOn := true } })
  | .adcClose => .next (record .adcClose { s with periph := { s.periph with adcOn := false } })
  | .adcRead ch =>
    if s.periph.refOn && s.periph.adcOn then
      if i < 5 then .next (storeReading ch i s) else .refused .noReadingRegister
    else .refused .adcReadUnpowered
  | .dacSetLevel l => .next (record (.dacSetLevel l) { s with periph := { s.periph with dacLevel := l } })
  | .referenceOutputEnable b =>
    .next (record (.refOutEn b) { s with periph := { s.periph with dacOutOn := b } })
  | .indicatorSet b => .next (indicate b s)

/-- A line the host may deliver (R224): at most IN_LINE_MAX bytes and no LF. -/
def deliverable (c : Config) (b : Bytes) : Bool := decide (b.length ≤ c.inLineMax) && !b.contains chLF

/-- R224: a delivered line becomes LINE's whole content (R31) and the event is recorded. -/
def receiveLine (b : Bytes) (s : State) : State :=
  record (.readLine b) { s with line := Memory.setBytes [] 0 b, lineLen := b.length }

/-- R220: reset. Only the parameters survive; the environment is no state of the block and goes on (log 7). -/
def powerUp (s : State) : State := { State.reset with cfg := s.cfg, env := s.env }

end Sys2Proof.Machine
end

