-- ==== Sys2Proof/Machine/Flags.lean ====
section
/-! DEFINITION. The two flags, OVERRIDE and IND (spec/10_state.md R25, R26, R38), and every computation on them
(spec/41_dispatcher.md R122, R123; spec/42_commands.md R142). No operation writes a flag as a side effect. -/

namespace Sys2Proof.Machine

/-- R122, R123: an automatic indicator transaction, issued exactly when OVERRIDE is 0, whatever IND is
(spec/92_eei_decisions.md D36). -/
def autoIndicate (b : Bool) (s : State) : State := if s.session.override then s else indicate b s

/-- A handler's session write: OVERRIDE <- 1 for `L` with an argument (R142), nothing for the others. -/
def writeOverride (sets : Bool) (s : State) : State :=
  if sets then { s with session := { s.session with override := true } } else s

end Sys2Proof.Machine
end

