-- ==== Sys2Proof/Machine/Cycle.lean ====
section
/-! DEFINITION. The dispatch sequence every command shares (spec/41_dispatcher.md R121 to R124, R133) and the reply
format (spec/30_encoding.md R82, R85). -/

namespace Sys2Proof.Machine

/-- What a handler gives (spec/42_commands.md R140): the opcode and tokens it was chosen by, its HAL transactions, its
session write, its reply data. -/
structure Handler where
  op : Byte
  args : List Token
  plan : List HalReq
  setsOverride : Bool
  data : Bytes
  deriving DecidableEq, Repr

/-- R82: `/`, `0`, the opcode echoed, a space, the data, `#`, LF. -/
def replyBytes (op : Byte) (data : Bytes) : Bytes :=
  [chSlash, chZero, op, chSpace] ++ data ++ [chHash, chLF]

/-- DISP_BEGIN (R121): indicator on (R122), OP, ARGS, PLAN, the session write, K, then EXEC(0). -/
def beginDispatch (h : Handler) (s : State) : State :=
  let t := writeOverride h.setsOverride (autoIndicate true s)
  goto (.exec 0) { t with work := { t.work with op := h.op, args := h.args, plan := h.plan, k := 0 } }

/-- Which read of its plan the k-th entry is, counted from 0 (R177: `RD[i]` for the i-th read of the plan). -/
def readIndex (plan : List HalReq) (k : Nat) : Nat :=
  (plan.take k).countP fun q => match q with
    | .adcRead _ => true
    | _ => false

/-- EXEC(k) with `k < |PLAN|` (R121): the transaction completes, K and `pc` advance. -/
def issueEntry (k : Nat) (q : HalReq) (s : State) : Result State :=
  andThen (completeHal q (readIndex s.work.plan k) s) fun t =>
    .next (goto (.exec (k + 1)) { t with work := { t.work with k := k + 1 } })

/-- The control state after reply assembly (R121, D22). -/
def afterAssembly (c : Config) : Ctrl := if c.replyBeforeIndOff then .reply else .dispEnd

/-- The control state after the reply (R121, D22). -/
def afterReply (c : Config) : Ctrl := if c.replyBeforeIndOff then .dispEnd else .wait

/-- The control state after DISP_END (R121, D22). -/
def afterDispEnd (c : Config) : Ctrl := if c.replyBeforeIndOff then .wait else .reply

/-- EXEC(k) with no k-th entry (R121, R133): the reply goes to OUT from index 0 on. -/
def assembleReply (h : Handler) (s : State) : Result State :=
  andThen (writeBytes (outSpace s.cfg) s.out 0 (replyBytes h.op h.data)) fun m =>
    .next (goto (afterAssembly s.cfg) { s with out := m, outLen := (replyBytes h.op h.data).length })

/-- REPLY (R121): one `transportWriteLine` of OUT[0 .. OUT_LEN). -/
def emitReply (s : State) : Result State :=
  andThen (readBytes (outSpace s.cfg) s.out 0 s.outLen) fun bs =>
    .next (goto (afterReply s.cfg) (record (.writeLine bs) s))

/-- DISP_END (R121, R123): indicator off; OVERRIDE is read afresh here. -/
def endDispatch (s : State) : State := goto (afterDispEnd s.cfg) (autoIndicate false s)

/-- One controller step of a dispatched command (R121). The control states outside the dispatch run no command
(log 9). -/
def runHandler (h : Handler) (s : State) : Result State :=
  match s.pc with
  | .dispBegin => .next (beginDispatch h s)
  | .exec k =>
    match s.work.plan[k]? with
    | some q => issueEntry k q s
    | none => assembleReply h s
  | .reply => emitReply s
  | .dispEnd => .next (endDispatch s)
  | .boot0 => .refused .notInDispatch
  | .boot1 => .refused .notInDispatch
  | .boot2 => .refused .notInDispatch
  | .wait => .refused .notInDispatch
  | .extract => .refused .notInDispatch

end Sys2Proof.Machine
end

