-- ==== Sys2Proof/Machine/Sequencer.lean ====
section
/-! DEFINITION. The peripheral sequencer's two operations, each the list of HAL transactions it expands to
(spec/43_sequencer.md R170 to R176). -/

namespace Sys2Proof.Machine

/-- R171 (enabled) and R172 (disabled, the level unused). -/
def setReference (level : BitVec 8) (enabled : Bool) : List HalReq :=
  if enabled then [.referenceInit, .dacSetLevel level, .referenceOutputEnable true]
  else [.referenceOutputEnable false]

/-- R174: one `adcRead` per requested channel, in request order. -/
def readChannels (channels : List ChannelId) : List HalReq := channels.map .adcRead

end Sys2Proof.Machine
end

