-- ==== Sys2Proof/Machine/Analog.lean ====
section
/-! DEFINITION. `a`, read the five analog channels (spec/42_commands.md R144). -/

namespace Sys2Proof.Machine

/-- The five readings spelled in decimal, one space between them (spec/30_encoding.md R83). -/
def readingsText (rd : Vector Nat 5) : Bytes :=
  dec rd[0] ++ chSpace :: dec rd[1] ++ chSpace :: dec rd[2] ++ chSpace :: dec rd[3] ++ chSpace :: dec rd[4]

/-- R144: the five reads in the order A to E, no session write, the readings. -/
def handlerA (args : List Token) (c : Config) (rd : Vector Nat 5) : Handler where
  op := chA
  args := args
  plan := readChannels c.channels.toList
  setsOverride := false
  data := readingsText rd

/-- The meaning of `a`: one controller step of its dispatch. -/
def execA (args : List Token) (s : State) : Result State := runHandler (handlerA args s.cfg s.rd) s

end Sys2Proof.Machine
end

