-- ==== Sys2Proof/WellFormed.lean ====
section
/-! DEFINITION. When an instruction is one the encoding can carry: its tokens are tokens of a payload
(spec/30_encoding.md R72, spec/41_dispatcher.md R125), its condition in the opcode table holds, its opcode is none of
another row. -/

namespace Sys2Proof

/-- A token of a payload: not empty, no separator, no byte a payload cannot hold. -/
def tokenOk (t : Token) : Bool :=
  !t.isEmpty && t.all fun b => !Machine.isSeparator b && Machine.isPayloadByte b

/-- Every token of a list is one a payload can carry. -/
def tokensOk (ts : List Token) : Bool := ts.all tokenOk

/-- An opcode byte of the UNKNOWN row: one of the 249 values of R79's last line. -/
def unknownOpOk (op : Byte) : Bool :=
  op != Machine.chV && op != Machine.chL && op != Machine.chA && op != Machine.chW && Machine.isPayloadByte op

/-- The instruction is one that a payload encodes. -/
def Instr.wellFormed : Instr → Bool
  | .nopEmpty => true
  | .v args => tokensOk args
  | .l value rest => tokenOk value && tokensOk rest
  | .lNoValue => true
  | .a args => tokensOk args
  | .w level none rest => tokenOk level && rest.isEmpty
  | .w level (some flag) rest =>
    tokenOk level && tokenOk flag && Machine.truth (Machine.num flag) && tokensOk rest
  | .wOff level flag rest =>
    tokenOk level && tokenOk flag && !Machine.truth (Machine.num flag) && tokensOk rest
  | .wMissing => true
  | .unknown op args => unknownOpOk op && tokensOk args

end Sys2Proof
end

