-- ==== Sys2Proof/Decode.lean ====
section
/-! DEFINITION. From the bytes of a line to an instruction: the scan for a frame (spec/40_frame_extractor.md R101 to
R111), the opcode map (spec/30_encoding.md R75 to R81) and the opcode table's conditions; then the encoder
(R72, R75, R87). A line that carries no instruction for this node is rejected by the name of its framing outcome
(spec/60_exceptions.md R190, R192); on payload bytes the decoder is total, for no opcode is reserved (R80). -/

namespace Sys2Proof

open Machine

/-- The scanned window: the bytes before the first NUL (R101). -/
def window (line : Bytes) : Bytes := line.takeWhile (fun b => b != chNul)

/-- What the three checks find in a window (R102 to R107, R110): the registers each path writes are its arguments. -/
inductive Scan where
  /-- No `/` in the window. -/
  | noStart
  /-- `/` at `s`, no `!` after it. -/
  | noEnd (s : Nat)
  /-- Both markers, at `s` and `e`, and another node's address. -/
  | notForMe (s e : Nat)
  /-- Both markers and this node's address. -/
  | addressed (s e : Nat)
  deriving DecidableEq, Repr

/-- R111's searches: the first `/`, the first `!` after it, the address byte. -/
def scanFrame (nodeId : Byte) (win : Bytes) : Scan :=
  match win.findIdx? (fun b => b == chSlash) with
  | none => .noStart
  | some s =>
    match (win.drop (s + 1)).findIdx? (fun b => b == chBang) with
    | none => .noEnd s
    | some d => if win[s + 1]? = some nodeId then .addressed s (s + 1 + d) else .notForMe s (s + 1 + d)

/-- The framing outcomes that carry no instruction (R190, codes 1 to 3). -/
inductive FrameError where
  | noStart
  | noEnd
  | notForMe
  deriving DecidableEq, Repr

/-- The payload of a line for this node, or the framing outcome by name. -/
def framePayload (nodeId : Byte) (line : Bytes) : Except FrameError Bytes :=
  match scanFrame nodeId (window line) with
  | .noStart => .error .noStart
  | .noEnd _ => .error .noEnd
  | .notForMe _ _ => .error .notForMe
  | .addressed s e => .ok ((line.drop (s + 2)).take (e - s - 2))

/-- The opcode map (R79, R132) and the conditions of the table's rows: which command an opcode with its tokens is. -/
def classify (op : Byte) (args : List Token) : Instr :=
  if op = chV then .v args
  else if op = chL then
    match args with
    | [] => .lNoValue
    | value :: rest => .l value rest
  else if op = chA then .a args
  else if op = chW then
    match args with
    | [] => .wMissing
    | [level] => .w level none []
    | level :: flag :: rest =>
      if truth (num flag) then .w level (some flag) rest else .wOff level flag rest
  else .unknown op args

/-- The instruction a payload is (R75, R76, R79). -/
def decode : Bytes → Instr
  | [] => .nopEmpty
  | op :: text => classify op (tokens text)

/-- The instruction a line carries to this node, or the framing outcome by name. -/
def decodeLine (nodeId : Byte) (line : Bytes) : Except FrameError Instr :=
  match framePayload nodeId line with
  | .error e => .error e
  | .ok p => .ok (decode p)

/-- The argument text of R87's spelling: the tokens with one comma between them. -/
def encodeArgs : List Token → Bytes
  | [] => []
  | [t] => t
  | t :: u :: ts => t ++ chComma :: encodeArgs (u :: ts)

/-- The opcode byte and the tokens of an instruction; none for the empty payload (R75, R78). -/
def Instr.fields : Instr → Option (Byte × List Token)
  | .nopEmpty => none
  | .v args => some (chV, args)
  | .l value rest => some (chL, value :: rest)
  | .lNoValue => some (chL, [])
  | .a args => some (chA, args)
  | .w level none rest => some (chW, level :: rest)
  | .w level (some flag) rest => some (chW, level :: flag :: rest)
  | .wOff level flag rest => some (chW, level :: flag :: rest)
  | .wMissing => some (chW, [])
  | .unknown op args => some (op, args)

/-- The payload of an instruction: opcode byte, then the argument text (R75, R87). -/
def encode (i : Instr) : Bytes :=
  match i.fields with
  | none => []
  | some (op, args) => op :: encodeArgs args

/-- The frame of an instruction for a node (R72): `/`, address, payload, `!`. -/
def encodeFrame (nodeId : Byte) (i : Instr) : Bytes :=
  chSlash :: nodeId :: (encode i ++ [chBang])

/-- The bytes of a table word: the first `n` bytes of `w`, the least significant first, as
spec/opcode_table.json numbers bits (bit 0 is the opcode byte's bit 0). -/
def wordBytes : Nat → Nat → Bytes
  | 0, _ => []
  | n + 1, w => BitVec.ofNat 8 w :: wordBytes n (w / 256)

/-- The instruction the decoder reads from a payload of `nbits` bits (log 15). -/
def decodeTableWord (nbits w : Nat) : Option Instr := some (decode (wordBytes (nbits / 8) w))

end Sys2Proof
end

