-- ==== Sys2Proof/Machine/Framing.lean ====
section
/-! DEFINITION. Frame extraction (spec/40_frame_extractor.md R100 to R111) and the empty payload's no-op (R108). -/

namespace Sys2Proof.Machine

/-- The payload view LINE[PAY_LO .. PAY_LO + PAY_LEN) (spec/10_state.md R34). -/
def payload (s : State) : Result Bytes :=
  readBytes (lineSpace s.cfg) s.line s.work.payLo s.work.payLen

/-- R111 up to the choice of the next control state: what the scan of the window writes. The truncation byte is
written on the addressed path alone (R107). -/
def applyScan (sc : Scan) (s : State) : Result State :=
  match sc with
  | .noStart => .next { s with work := { s.work with fres := .malformedNoStart } }
  | .noEnd i => .next { s with work := { s.work with sIdx := i, fres := .malformedNoEnd } }
  | .notForMe i e => .next { s with work := { s.work with sIdx := i, eIdx := e, fres := .notForMe } }
  | .addressed i e =>
    andThen (writeBytes (lineSpace s.cfg) s.line e [chNul]) fun m =>
      .next { s with
        line := m
        work := { s.work with sIdx := i, eIdx := e, fres := .addressed, payLo := i + 2, payLen := e - i - 2 } }

/-- EXTRACT's registers and truncation (R111). -/
def extractFrame (s : State) : Result State :=
  andThen (readBytes (lineSpace s.cfg) s.line 0 s.lineLen) fun line =>
    applyScan (scanFrame s.cfg.nodeId (window line)) s

/-- NOP_EMPTY (R108): no dispatch, no reply; back to WAIT. -/
def execNopEmpty (s : State) : Result State := .next (goto .wait s)

/-- The state in which the controller fetches a payload that was placed by hand: DISP_BEGIN after an extraction of
`/`, NODE_ID, the payload, `!`; for the empty payload, EXTRACT of that line (log 13). -/
def placePayload (p : Bytes) (s : State) : State :=
  if p = [] then
    { s with
      pc := .extract
      line := Memory.setBytes [] 0 [chSlash, s.cfg.nodeId, chBang]
      lineLen := 3
      env := { s.env with schedule := [] } }
  else
    { s with
      pc := .dispBegin
      line := Memory.setBytes [] 0 (chSlash :: s.cfg.nodeId :: (p ++ [chNul]))
      lineLen := p.length + 3
      work := { s.work with sIdx := 0, eIdx := p.length + 2, fres := .addressed, payLo := 2, payLen := p.length }
      env := { s.env with schedule := [] } }

end Sys2Proof.Machine
end

