-- ==== Sys2Proof/Machine/Indicator.lean ====
section
/-! DEFINITION. `L`, override the activity indicator (spec/42_commands.md R142, R143). -/

namespace Sys2Proof.Machine

/-- The bit an `L` value applies (R129, R142). -/
def lBit (value : Token) : Bool := lsb (num value)

/-- R142: OVERRIDE <- 1, `indicatorSet(bit)`, the bit echoed; further tokens ignored. -/
def handlerL (value : Token) (rest : List Token) : Handler where
  op := chL
  args := value :: rest
  plan := [.indicatorSet (lBit value)]
  setsOverride := true
  data := dec (if lBit value then 1 else 0)

/-- R143: the argument error, no session write. -/
def handlerLNoValue (c : Config) : Handler where
  op := chL
  args := []
  plan := []
  setsOverride := false
  data := c.errLNoValue

/-- The meaning of `L` with a value: one controller step of its dispatch. -/
def execL (value : Token) (rest : List Token) (s : State) : Result State :=
  runHandler (handlerL value rest) s

/-- The meaning of `L` without a value: one controller step of its dispatch. -/
def execLNoValue (s : State) : Result State := runHandler (handlerLNoValue s.cfg) s

end Sys2Proof.Machine
end

