-- ==== Sys2Proof/Machine/Reference.lean ====
section
/-! DEFINITION. `w`, the reference output (spec/42_commands.md R145 to R147). -/

namespace Sys2Proof.Machine

/-- The level a `w` applies and echoes (R128, R145). -/
def wLevel (level : Token) : BitVec 8 := clamp (num level)

/-- The tokens of a `w` with its optional flag, in order. -/
def wArgs (level : Token) (flag : Option Token) (rest : List Token) : List Token :=
  match flag with
  | none => level :: rest
  | some f => level :: f :: rest

/-- The text `off` (spec/30_encoding.md R83). -/
def txtOff : Bytes := [0x6F, 0x66, 0x66]

/-- R145: `setReference(level, true)`, the clamped level echoed. -/
def handlerW (level : Token) (flag : Option Token) (rest : List Token) : Handler where
  op := chW
  args := wArgs level flag rest
  plan := setReference (wLevel level) true
  setsOverride := false
  data := dec (wLevel level).toNat

/-- R146: `setReference(level, false)`; the level is computed and not applied. -/
def handlerWOff (level flag : Token) (rest : List Token) : Handler where
  op := chW
  args := level :: flag :: rest
  plan := setReference (wLevel level) false
  setsOverride := false
  data := txtOff

/-- R147: the argument error. -/
def handlerWMissing (c : Config) : Handler where
  op := chW
  args := []
  plan := []
  setsOverride := false
  data := c.errWMissing

/-- The meaning of `w` with the output on: one controller step of its dispatch. -/
def execW (level : Token) (flag : Option Token) (rest : List Token) (s : State) : Result State :=
  runHandler (handlerW level flag rest) s

/-- The meaning of `w` with the output off: one controller step of its dispatch. -/
def execWOff (level flag : Token) (rest : List Token) (s : State) : Result State :=
  runHandler (handlerWOff level flag rest) s

/-- The meaning of `w` without an argument: one controller step of its dispatch. -/
def execWMissing (s : State) : Result State := runHandler (handlerWMissing s.cfg) s

end Sys2Proof.Machine
end

