-- ==== Sys2Proof/Machine/Unknown.lean ====
section
/-! DEFINITION. Any other opcode (spec/42_commands.md R148, spec/60_exceptions.md R194). -/

namespace Sys2Proof.Machine

/-- R148: ERR_UNKNOWN under the request's own opcode byte. -/
def handlerUnknown (op : Byte) (args : List Token) (c : Config) : Handler where
  op := op
  args := args
  plan := []
  setsOverride := false
  data := c.errUnknown

/-- The meaning of an unknown opcode: one controller step of its dispatch. -/
def execUnknown (op : Byte) (args : List Token) (s : State) : Result State :=
  runHandler (handlerUnknown op args s.cfg) s

end Sys2Proof.Machine
end

