-- ==== Sys2Proof/Machine/Version.lean ====
section
/-! DEFINITION. `v`, report the firmware version (spec/42_commands.md R141). -/

namespace Sys2Proof.Machine

/-- R141: no transaction, no session write, VERSION_STRING. -/
def handlerV (args : List Token) (c : Config) : Handler where
  op := chV
  args := args
  plan := []
  setsOverride := false
  data := c.version

/-- The meaning of `v`: one controller step of its dispatch. -/
def execV (args : List Token) (s : State) : Result State := runHandler (handlerV args s.cfg) s

end Sys2Proof.Machine
end

