-- ==== Sys2Proof/Machine/Dispatch.lean ====
section
/-! DEFINITION. One arm per command. -/

namespace Sys2Proof.Machine

/-- One controller step of a command, in the control state `s.pc` (spec/41_dispatcher.md R121, R132). -/
def exec (i : Instr) (s : State) : Host.Outcome State Fault Refusal :=
  match i with
  | .nopEmpty => Sys2Proof.Machine.execNopEmpty s
  | .v args => Sys2Proof.Machine.execV args s
  | .l value rest => Sys2Proof.Machine.execL value rest s
  | .lNoValue => Sys2Proof.Machine.execLNoValue s
  | .a args => Sys2Proof.Machine.execA args s
  | .w level flag rest => Sys2Proof.Machine.execW level flag rest s
  | .wOff level flag rest => Sys2Proof.Machine.execWOff level flag rest s
  | .wMissing => Sys2Proof.Machine.execWMissing s
  | .unknown op args => Sys2Proof.Machine.execUnknown op args s

end Sys2Proof.Machine
end

