-- ==== Sys2Proof/Machine/Controller.lean ====
section
/-! DEFINITION. The controller's transition relation (spec/70_reset_and_hazards.md R220 to R226) and the environment's
moves around it (spec/60_exceptions.md R207; logs 6, 7). -/

namespace Sys2Proof.Machine

/-- A boot step (R221): one HAL transaction, then the next control state. -/
def bootStep (q : HalReq) (after : Ctrl) (s : State) : Result State :=
  andThen (completeHal q 0 s) fun t => .next (goto after t)

/-- WAIT (R224): the host's next line; a silent host leaves the block waiting (R226, R235); a line the host has no
move for is refused (R207). -/
def waitStep (s : State) : Result State :=
  match s.env.lines with
  | [] => .next s
  | b :: rest =>
    if deliverable s.cfg b then
      .next (goto .extract (receiveLine b { s with env := { s.env with lines := rest } }))
    else .refused .lineNotDeliverable

/-- After extraction (R103, R105, R106, R108): drop the line, run the empty payload's no-op, or enter the dispatch. -/
def afterExtract (t : State) : Result State :=
  if t.work.fres = .addressed then
    if t.work.payLen = 0 then exec .nopEmpty t else .next (goto .dispBegin t)
  else .next (goto .wait t)

/-- The command being dispatched in EXEC(k), REPLY and DISP_END: the one OP and ARGS select (R132). -/
def currentInstr (s : State) : Instr := classify s.work.op s.work.args

/-- One row of R225, the transaction it issues completing. -/
def controllerStep (s : State) : Result State :=
  match s.pc with
  | .boot0 => bootStep .referenceInit .boot1 s
  | .boot1 => bootStep .adcInit .boot2 s
  | .boot2 => bootStep (.indicatorSet false) .wait s
  | .wait => waitStep s
  | .extract => andThen (extractFrame s) afterExtract
  | .dispBegin => andThen (payload s) fun p => exec (decode p) s
  | .exec _ => exec (currentInstr s) s
  | .reply => exec (currentInstr s) s
  | .dispEnd => exec (currentInstr s) s

/-- The step waits for a transaction's completion (spec/10_state.md R20): only then can it hang (R207). -/
def issuesTransaction (s : State) : Bool :=
  match s.pc with
  | .boot0 => true
  | .boot1 => true
  | .boot2 => true
  | .wait => true
  | .extract => false
  | .dispBegin => !s.session.override
  | .exec k => decide (k < s.work.plan.length)
  | .reply => true
  | .dispEnd => !s.session.override

/-- The state with the rest of the schedule. -/
def withSchedule (moves : List EnvMove) (s : State) : State := { s with env := { s.env with schedule := moves } }

/-- A configuration that breaks R5 is refused (R207). -/
def ifConfigured (c : Config) (x : Result State) : Result State := if configOk c then x else .refused .invalidConfig

/-- One step of the machine: the environment's move, then the controller's. A transaction that never completes leaves
the state as it is, for ever (R207). -/
def scheduledStep (s : State) : Result State :=
  match s.env.schedule with
  | [] => ifConfigured s.cfg (controllerStep s)
  | .proceed :: rest => ifConfigured s.cfg (controllerStep (withSchedule rest s))
  | .hang :: _ => ifConfigured s.cfg (if issuesTransaction s then .next s else controllerStep s)
  | .reset :: rest => ifConfigured s.cfg (.next (powerUp (withSchedule rest s)))

end Sys2Proof.Machine
end

