-- ==== Sys2Proof/Machine/Step.lean ====
section
/-! DEFINITION. One step of the machine, and the state whose next step runs a given instruction. -/

namespace Sys2Proof.Machine

/-- One controller step, or the environment's move in its place (spec/70_reset_and_hazards.md R225). -/
def step (s : State) : Host.Outcome State Fault Refusal := scheduledStep s

/-- `s` with a payload of `nbits` bits placed where the next step fetches it (log 13). -/
def State.withFetchWord (s : State) (nbits w : Nat) : State :=
  placePayload (wordBytes (nbits / 8) w) s

end Sys2Proof.Machine
end

