-- ==== Sys2Proof/Safety.lean ====
section
/-! DEFINITION. The words statements are made in: the outcomes of a cycle (spec/60_exceptions.md R190), the effects of
every command path as spec/42_commands.md R149 tabulates them, what a cycle adds to TRACE, what a transfer between the
buffers and the registers leaves unchanged, and the machine's invariant. -/

namespace Sys2Proof.Machine

/-- `n` machine steps, stopping at the first fault or refusal. -/
def run : Nat → State → Result State
  | 0, s => .next s
  | n + 1, s => andThen (step s) (run n)

/-- The outcomes of a cycle (R190). They are names: no reply, transaction or register carries one. -/
inductive CycleOutcome where
  | ok
  | noStart
  | noEnd
  | notForMe
  | empty
  | argMissing
  | unknownOp
  deriving DecidableEq, Repr

/-- R190's codes. -/
def CycleOutcome.code : CycleOutcome → Nat
  | .ok => 0
  | .noStart => 1
  | .noEnd => 2
  | .notForMe => 3
  | .empty => 4
  | .argMissing => 5
  | .unknownOp => 6

/-- The outcome of a command (R190, R193, R194). -/
def outcomeOf : Instr → CycleOutcome
  | .nopEmpty => .empty
  | .v _ => .ok
  | .l _ _ => .ok
  | .lNoValue => .argMissing
  | .a _ => .ok
  | .w _ _ _ => .ok
  | .wOff _ _ _ => .ok
  | .wMissing => .argMissing
  | .unknown _ _ => .unknownOp

/-- The outcome of the cycle a line starts (R190, R197). -/
def lineOutcome (nodeId : Byte) (line : Bytes) : CycleOutcome :=
  match decodeLine nodeId line with
  | .error .noStart => .noStart
  | .error .noEnd => .noEnd
  | .error .notForMe => .notForMe
  | .ok i => outcomeOf i

/-- PLAN of every command path, by the table of R149. -/
def planOf (c : Config) : Instr → List HalReq
  | .nopEmpty => []
  | .v _ => []
  | .l value _ => [.indicatorSet (lBit value)]
  | .lNoValue => []
  | .a _ => [.adcRead c.channels[0], .adcRead c.channels[1], .adcRead c.channels[2], .adcRead c.channels[3],
      .adcRead c.channels[4]]
  | .w level _ _ => [.referenceInit, .dacSetLevel (wLevel level), .referenceOutputEnable true]
  | .wOff _ _ _ => [.referenceOutputEnable false]
  | .wMissing => []
  | .unknown _ _ => []

/-- The reply data of every command path, by the table of R149 (spec/30_encoding.md R83). -/
def dataOf (c : Config) (rd : Vector Nat 5) : Instr → Bytes
  | .nopEmpty => []
  | .v _ => c.version
  | .l value _ => dec (if lBit value then 1 else 0)
  | .lNoValue => c.errLNoValue
  | .a _ => dec rd[0] ++ chSpace :: dec rd[1] ++ chSpace :: dec rd[2] ++ chSpace :: dec rd[3] ++ chSpace :: dec rd[4]
  | .w level _ _ => dec (wLevel level).toNat
  | .wOff _ _ _ => txtOff
  | .wMissing => c.errWMissing
  | .unknown _ _ => c.errUnknown

/-- The command path writes OVERRIDE (R149). -/
def writesOverride : Instr → Bool
  | .nopEmpty => false
  | .v _ => false
  | .l _ _ => true
  | .lNoValue => false
  | .a _ => false
  | .w _ _ _ => false
  | .wOff _ _ _ => false
  | .wMissing => false
  | .unknown _ _ => false

/-- What DISP_BEGIN leaves (spec/41_dispatcher.md R121, R122), every field: `sets` is the handler's write of OVERRIDE. -/
def begun (op : Byte) (args : List Token) (plan : List HalReq) (sets : Bool) (s : State) : State :=
  { s with
    pc := .exec 0
    session := { override := s.session.override || sets, ind := s.session.ind || !s.session.override }
    trace := s.trace ++ (if s.session.override then [] else [.indSet true])
    work := { s.work with op := op, args := args, plan := plan, k := 0 } }

/-- `t` is `s` after reply assembly (R133): the reply in OUT from index 0, OUT_LEN its length, every other byte of OUT
and every other field as before, `pc` at REPLY or DISP_END (R121). -/
def Assembled (op : Byte) (data : Bytes) (s t : State) : Prop :=
  t = { s with pc := if s.cfg.replyBeforeIndOff then .reply else .dispEnd
               out := t.out
               outLen := 6 + data.length }
    ∧ ∀ a, t.out.byte? a =
        if a < 6 + data.length then (replyBytes op data)[a]? else s.out.byte? a

/-- What a dispatched cycle adds to TRACE after its `ReadLine` (R121): indicator on unless OVERRIDE was set before,
the handler's events, then the reply and the indicator-off unless OVERRIDE is set afterwards, in the order the
parameter gives. -/
def cycleEvents (c : Config) (before after : Bool) (handler : List Event) (reply : Bytes) : List Event :=
  (if before then [] else [.indSet true]) ++ handler ++
    (if c.replyBeforeIndOff then .writeLine reply :: (if after then [] else [.indSet false])
     else (if after then [] else [.indSet false]) ++ [.writeLine reply])

/-- The block waits, the host's next line is `b`, and every transaction completes. -/
def ReadyFor (s : State) (b : Bytes) (later : List Bytes) : Prop :=
  s.pc = .wait ∧ configOk s.cfg = true ∧ s.env.lines = b :: later ∧ deliverable s.cfg b = true
    ∧ s.env.schedule = []

/-- The environment after `n` more readings. -/
def envAfter : Nat → Env → Env
  | 0, e => e
  | n + 1, e => envAfter n e.afterReading

/-- The HAL's answer to the n-th coming `adcRead`, counted from 0. -/
def readingNo (s : State) (n : Nat) : Nat := nextReading { s with env := envAfter n s.env }

/-- The bytes `lo .. lo + n` of a buffer all hold values. -/
def HoldsValues (m : Memory) (lo n : Nat) : Prop := ∀ i, i < n → (m.byte? (lo + i)).isSome = true

/-- The bytes of a buffer from `lo` on are `bs`. -/
def Holds (m : Memory) (lo : Nat) (bs : Bytes) : Prop := ∀ i, i < bs.length → m.byte? (lo + i) = bs[i]?

/-- A read of `n` bytes from `lo` on gets all bytes before its j-th and not the j-th: that one lies at or past the size
of the space (spec/20_memory.md R54) or holds no value (log 3). -/
def ReadStopsAt (size : Nat) (m : Memory) (lo n j : Nat) : Prop :=
  j < n ∧ (∀ i, i < j → lo + i < size ∧ (m.byte? (lo + i)).isSome = true)
    ∧ (size ≤ lo + j ∨ m.byte? (lo + j) = none)

/-- How many `adcRead`s stand in a plan before its k-th entry (spec/43_sequencer.md R174). -/
def readsBefore (plan : List HalReq) (k : Nat) : Nat :=
  ((plan.take k).filter fun q => match q with
    | .adcRead _ => true
    | _ => false).length

/-- The control states whose step issues a transaction and waits for it (spec/10_state.md R20,
spec/70_reset_and_hazards.md R225): a boot step, the line input, a HAL transaction of PLAN, the reply, and the
automatic indicator transactions, which OVERRIDE = 0 issues (spec/41_dispatcher.md R122, R123). -/
def AwaitsTransaction (s : State) : Prop :=
  s.pc = .boot0 ∨ s.pc = .boot1 ∨ s.pc = .boot2 ∨ s.pc = .wait ∨ s.pc = .reply
    ∨ (∃ k, s.pc = .exec k ∧ k < s.work.plan.length)
    ∨ ((s.pc = .dispBegin ∨ s.pc = .dispEnd) ∧ s.session.override = false)

/-- Both buffers are canonical and within their sizes (spec/20_memory.md R50, spec/10_state.md R31, R32). -/
def BufferInv (s : State) : Prop :=
  Memory.wf s.line ∧ Memory.wf s.out
    ∧ (∀ c ∈ s.line, c.1 < s.cfg.inLineMax) ∧ (∀ c ∈ s.out, c.1 < s.cfg.outLineMax)
    ∧ s.lineLen ≤ s.cfg.inLineMax ∧ s.outLen ≤ s.cfg.outLineMax

/-- The reference and the ADC stay on once boot has turned them on (R28, R29). -/
def PowerInv (s : State) : Prop :=
  (s.pc ≠ .boot0 → s.periph.refOn = true) ∧ (s.pc ≠ .boot0 → s.pc ≠ .boot1 → s.periph.adcOn = true)

/-- Every reading register is within 0..ADC_MAX (R33). -/
def ReadingInv (s : State) : Prop := ∀ r ∈ s.rd.toList, r ≤ s.cfg.adcMax

/-- The reply of the command being dispatched stands in OUT. -/
def ReplyInOut (s : State) : Prop :=
  Holds s.out 0 (replyBytes s.work.op (dataOf s.cfg s.rd (currentInstr s)))
    ∧ s.outLen = 6 + (dataOf s.cfg s.rd (currentInstr s)).length

/-- OVERRIDE is 1 when the command being dispatched wrote it (R142). -/
def OverrideWritten (s : State) : Prop := writesOverride (currentInstr s) = true → s.session.override = true

/-- What each control state finds in the buffers and working registers (R34: each is written before it is read). -/
def ControlInv (s : State) : Prop :=
  match s.pc with
  | .boot0 => True
  | .boot1 => True
  | .boot2 => True
  | .wait => True
  | .extract => HoldsValues s.line 0 s.lineLen
  | .dispBegin => 1 ≤ s.work.payLen ∧ HoldsValues s.line s.work.payLo s.work.payLen
      ∧ s.work.payLo + s.work.payLen ≤ s.cfg.inLineMax
  | .exec k => k ≤ s.work.plan.length ∧ s.work.k = k ∧ s.work.plan = planOf s.cfg (currentInstr s) ∧ OverrideWritten s
  | .reply => ReplyInOut s ∧ OverrideWritten s
  | .dispEnd => OverrideWritten s ∧ (s.cfg.replyBeforeIndOff = false → ReplyInOut s)

/-- The machine's invariant: reset has it and every step keeps it. -/
def MachineInv (s : State) : Prop :=
  configOk s.cfg = true ∧ BufferInv s ∧ PowerInv s ∧ ReadingInv s ∧ ControlInv s

/-- The host keeps its duty (R224, R235): every line it will deliver is one it may. -/
def HostInv (s : State) : Prop := ∀ b ∈ s.env.lines, deliverable s.cfg b = true

/-- The same in everything a later cycle may read (R37): all but the buffers, RD and the working registers. -/
def SameLive (s t : State) : Prop :=
  s.cfg = t.cfg ∧ s.pc = t.pc ∧ s.session = t.session ∧ s.periph = t.periph ∧ s.trace = t.trace ∧ s.env = t.env

/-- The same in everything but the shadow fields that no command reads (R140). -/
def SameButShadow (s t : State) : Prop :=
  t = { s with session := { s.session with ind := t.session.ind }
               periph := { s.periph with dacOutOn := t.periph.dacOutOn, dacLevel := t.periph.dacLevel } }

/-- Two outcomes of one kind: related states, or the same stop. -/
def SameOutcome (rel : State → State → Prop) : Result State → Result State → Prop
  | .next s, .next t => rel s t
  | .fault e, .fault f => e = f
  | .refused e, .refused f => e = f
  | _, _ => False

end Sys2Proof.Machine
end

