-- ==== Sys2Proof/Certificates/Slice0/Obligations.lean ====
section
/-! DEFINITION. The statements for the provers, from the numbered rules of spec/: encoding, extraction, boot and the
control loop, every command's steps and whole cycle, and the rules that hold of the whole machine. -/

open Sys2Proof Sys2Proof.Machine

/-! ### Encoding and argument primitives -/

/-- Decoding the payload an instruction is encoded to gives the instruction back, every token included
(spec/30_encoding.md R75, R78, R87; spec/41_dispatcher.md R125, R132). The comma spelling is the model's choice of one
of R87's (log 14). -/
def Obligations.DecodeInvertsEncode : Prop :=
  ∀ i : Instr, i.wellFormed = true → decode (encode i) = i

/-- A line that holds an instruction's frame carries that instruction, whatever bytes but `/` and NUL stand before the
frame and whatever bytes stand after it (spec/30_encoding.md R72 to R74; spec/40_frame_extractor.md R102 to R107,
R109). -/
def Obligations.FramedLineCarriesInstruction : Prop :=
  ∀ (nodeId : Byte) (i : Instr) (before after : Bytes), nodeIdOk nodeId = true → i.wellFormed = true →
    chSlash ∉ before → chNul ∉ before →
    decodeLine nodeId (before ++ encodeFrame nodeId i ++ after) = .ok i

/-- Payloads written out byte by byte from spec/30_encoding.md R70 and R79 decode to their commands. -/
def Obligations.WrittenPayloadsDecode : Prop :=
  decode [] = .nopEmpty
    ∧ decode [0x76] = .v []
    ∧ decode [0x4C, 0x31] = .l [0x31] []
    ∧ decode [0x4C, 0x20, 0x2C] = .lNoValue
    ∧ decode [0x61, 0x20, 0x39] = .a [[0x39]]
    ∧ decode [0x77, 0x20, 0x31, 0x32, 0x38] = .w [0x31, 0x32, 0x38] none []
    ∧ decode [0x77, 0x20, 0x31, 0x32, 0x38, 0x20, 0x30] = .wOff [0x31, 0x32, 0x38] [0x30] []
    ∧ decode [0x77] = .wMissing
    ∧ decode [0x7A] = .unknown 0x7A []

/-- What the decoder gives on a payload (bytes other than `!`, NUL, LF: R72) is a well-formed instruction. -/
def Obligations.DecodedPayloadIsWellFormed : Prop :=
  ∀ p : Bytes, (∀ b ∈ p, isPayloadByte b = true) → (decode p).wellFormed = true

/-- The opcode map (spec/30_encoding.md R79): a payload of length 0 selects the no-op, else the first payload byte
selects the command, all 8 bits compared, and the tokens of the rest (spec/41_dispatcher.md R125) select the row
(spec/42_commands.md R141 to R148): an argument missing or not, and for `w` the flag's truth value (R130), which is the
spec's own decision D16 (log 16). -/
def Obligations.OpcodeMapSelectsByFirstByte : Prop :=
  decode [] = .nopEmpty ∧ ∀ (op : Byte) (text : Bytes),
    (op = 0x76 → decode (op :: text) = .v (tokens text))
    ∧ (op = 0x4C → tokens text = [] → decode (op :: text) = .lNoValue)
    ∧ (∀ value rest, op = 0x4C → tokens text = value :: rest → decode (op :: text) = .l value rest)
    ∧ (op = 0x61 → decode (op :: text) = .a (tokens text))
    ∧ (op = 0x77 → tokens text = [] → decode (op :: text) = .wMissing)
    ∧ (∀ level, op = 0x77 → tokens text = [level] → decode (op :: text) = .w level none [])
    ∧ (∀ level flag rest, op = 0x77 → tokens text = level :: flag :: rest → num flag ≠ 0 →
        decode (op :: text) = .w level (some flag) rest)
    ∧ (∀ level flag rest, op = 0x77 → tokens text = level :: flag :: rest → num flag = 0 →
        decode (op :: text) = .wOff level flag rest)
    ∧ (op ≠ 0x76 → op ≠ 0x4C → op ≠ 0x61 → op ≠ 0x77 → decode (op :: text) = .unknown op (tokens text))

/-- The tokenizer (spec/41_dispatcher.md R125): tokens are non-empty and hold no separator, nothing but separators is
lost, a separator ends a token and a text without one is one token. Together these fix `tokens`. That runs of
separators collapse is the spec's own decision D9 (log 16). -/
def Obligations.TokensAreMaximalRuns : Prop :=
  (∀ text t, t ∈ tokens text → t ≠ [] ∧ ∀ b ∈ t, b ≠ 0x20 ∧ b ≠ 0x2C)
    ∧ (∀ text, (tokens text).flatten = text.filter (fun b => b != 0x20 && b != 0x2C))
    ∧ (∀ (x y : Bytes) (b : Byte), b = 0x20 ∨ b = 0x2C → tokens (x ++ b :: y) = tokens x ++ tokens y)
    ∧ (∀ t : Bytes, t ≠ [] → (∀ b ∈ t, b ≠ 0x20 ∧ b ≠ 0x2C) → tokens t = [t])
    ∧ tokens [] = []

/-- Parse-or-zero (spec/41_dispatcher.md R126, R127) on every token: leading blanks are skipped, one sign is taken,
then the digits, leading zeros among them, and whatever follows the digits is ignored; text without a number is 0;
nothing wraps. The precise shape is the spec's own decision D10 (log 16). -/
def Obligations.NumReadsSignAndDigits : Prop :=
  ∀ blanks after : Bytes, (∀ b ∈ blanks, b = 0x20 ∨ (0x09 ≤ b.toNat ∧ b.toNat ≤ 0x0D)) →
    (∀ b, after.head? = some b → ¬ (0x30 ≤ b.toNat ∧ b.toNat ≤ 0x39)) →
    (∀ (n : Nat) (zeros : Bytes), (∀ z ∈ zeros, z = 0x30) →
      num (blanks ++ zeros ++ dec n ++ after) = n
      ∧ num (blanks ++ 0x2D :: (zeros ++ dec n) ++ after) = -(n : Int)
      ∧ num (blanks ++ 0x2B :: (zeros ++ dec n) ++ after) = n)
    ∧ (∀ sign : Byte, sign = 0x2B ∨ sign = 0x2D → num (blanks ++ sign :: after) = 0)
    ∧ (∀ b, after.head? = some b → b ≠ 0x2B → b ≠ 0x2D → ¬ (b = 0x20 ∨ (0x09 ≤ b.toNat ∧ b.toNat ≤ 0x0D)) →
        num (blanks ++ after) = 0)
    ∧ num blanks = 0

/-- The decimal spelling (spec/41_dispatcher.md R131): digits only, whose value is the number, and no leading zero but
in `0` itself. That a reply spells numbers so is the spec's own decision D13 (log 16). -/
def Obligations.DecIsShortestNumeral : Prop :=
  ∀ n : Nat, dec n ≠ [] ∧ (∀ b ∈ dec n, 0x30 ≤ b.toNat ∧ b.toNat ≤ 0x39)
    ∧ (dec n).foldl (fun v b => 10 * v + (b.toNat - 0x30)) 0 = n
    ∧ ((dec n).head? = some 0x30 → n = 0) ∧ dec 0 = [0x30]
    ∧ ∀ m : Nat, m ≤ n → (dec m).length ≤ (dec n).length

/-- Clamp (spec/41_dispatcher.md R128), for every integer. -/
def Obligations.ClampNarrowsToLevel : Prop :=
  ∀ v : Int, ((clamp v).toNat : Int) = (if v < 0 then 0 else if v > 255 then 255 else v)

/-- Least significant bit and truth value (spec/41_dispatcher.md R129, R130), for every integer: R129 is derived from
the unbounded integers of decision D10, R130 is decision D16 (log 16). -/
def Obligations.LsbIsParityTruthIsNonzero : Prop :=
  ∀ v : Int,
    (lsb v = true ↔ v % 2 = 1) ∧ (lsb v = false ↔ v % 2 = 0)
    ∧ (truth v = true ↔ v ≠ 0) ∧ (truth v = false ↔ v = 0)

/-! ### Frame extraction -/

/-- The three checks in order on a scanned window (spec/40_frame_extractor.md R102 to R106, R110): the start marker is
the first `/`, the end marker the first `!` after it, the address the byte after the start marker. -/
def Obligations.ScanHonorsFirstMarkers : Prop :=
  ∀ (nodeId : Byte) (win : Bytes),
    (scanFrame nodeId win = .noStart ↔ chSlash ∉ win)
    ∧ (∀ s, scanFrame nodeId win = .noEnd s ↔
        win[s]? = some chSlash ∧ (∀ i < s, win[i]? ≠ some chSlash) ∧ (∀ j, s < j → win[j]? ≠ some chBang))
    ∧ (∀ s e, (scanFrame nodeId win = .notForMe s e ∨ scanFrame nodeId win = .addressed s e) ↔
        win[s]? = some chSlash ∧ (∀ i < s, win[i]? ≠ some chSlash) ∧ s < e ∧ win[e]? = some chBang
          ∧ (∀ j, s < j → j < e → win[j]? ≠ some chBang))
    ∧ (∀ s e, scanFrame nodeId win = .addressed s e → win[s + 1]? = some nodeId)
    ∧ (∀ s e, scanFrame nodeId win = .notForMe s e → win[s + 1]? ≠ some nodeId)

/-- The scanned window ends at the first NUL or at the line's end (spec/40_frame_extractor.md R101; the NUL is the
spec's own decision D5, log 16). -/
def Obligations.WindowEndsAtFirstNul : Prop :=
  ∀ line : Bytes, ∃ rest, line = window line ++ rest ∧ chNul ∉ window line
    ∧ (rest = [] ∨ ∃ more, rest = chNul :: more)

/-- EXTRACT of an addressed frame with a payload (spec/40_frame_extractor.md R107, R108): the truncation byte, the
registers and `pc` as the rule says, every other byte of LINE and every other field unchanged. -/
def Obligations.ExtractAddressedEntersDispatch : Prop :=
  ∀ (s : State) (line : Bytes) (i e : Nat), s.pc = .extract → configOk s.cfg = true → s.env.schedule = [] →
    s.lineLen = line.length → line.length ≤ s.cfg.inLineMax → Holds s.line 0 line →
    scanFrame s.cfg.nodeId (window line) = .addressed i e → i + 2 < e →
    ∃ t, step s = .next t
      ∧ t = { s with pc := .dispBegin
                     line := t.line
                     work := { s.work with sIdx := i, eIdx := e, fres := .addressed, payLo := i + 2, payLen := e - i - 2 } }
      ∧ t.line.byte? e = some 0x00 ∧ (∀ a, a ≠ e → t.line.byte? a = s.line.byte? a)
      ∧ payload t = .next ((line.drop (i + 2)).take (e - i - 2))

/-- The empty payload is a no-op (spec/40_frame_extractor.md R108): `pc` goes to WAIT and nothing is dispatched. The
step that extracts it also makes extraction's own writes (R107). The instruction itself changes `pc` alone, in whatever
control state `exec` is asked for it; that it is defined outside EXTRACT too is the model's choice (log 9). -/
def Obligations.EmptyPayloadReturnsToWait : Prop :=
  (∀ s : State, exec .nopEmpty s = .next { s with pc := .wait })
    ∧ ∀ (s : State) (line : Bytes) (i e : Nat), s.pc = .extract → configOk s.cfg = true → s.env.schedule = [] →
      s.lineLen = line.length → line.length ≤ s.cfg.inLineMax → Holds s.line 0 line →
      scanFrame s.cfg.nodeId (window line) = .addressed i e → e = i + 2 →
      ∃ t, step s = .next t
        ∧ t = { s with pc := .wait
                       line := t.line
                       work := { s.work with sIdx := i, eIdx := e, fres := .addressed, payLo := i + 2, payLen := 0 } }
        ∧ t.line.byte? e = some 0x00 ∧ ∀ a, a ≠ e → t.line.byte? a = s.line.byte? a

/-- EXTRACT of a line without a frame for this node (spec/40_frame_extractor.md R103, R105, R106): FRES says why,
`pc` goes to WAIT, only S_IDX and E_IDX may change beside them, and LINE does not: the terminator is written on the
addressed path alone (R107), which is the spec's own decision D7 (log 16). -/
def Obligations.ExtractDropsForeignLine : Prop :=
  ∀ (s : State) (line : Bytes), s.pc = .extract → configOk s.cfg = true → s.env.schedule = [] →
    s.lineLen = line.length → line.length ≤ s.cfg.inLineMax → Holds s.line 0 line →
    (scanFrame s.cfg.nodeId (window line) = .noStart →
      step s = .next { s with pc := .wait, work := { s.work with fres := .malformedNoStart } })
    ∧ (∀ i, scanFrame s.cfg.nodeId (window line) = .noEnd i →
      step s = .next { s with pc := .wait, work := { s.work with sIdx := i, fres := .malformedNoEnd } })
    ∧ (∀ i e, scanFrame s.cfg.nodeId (window line) = .notForMe i e →
      step s = .next { s with pc := .wait, work := { s.work with sIdx := i, eIdx := e, fres := .notForMe } })

/-- The lines spec/40_frame_extractor.md R112 (1, 2) names carry no frame for this node: no `/` or no `!`; or another
byte after the first `/`. -/
def Obligations.UnmarkedOrForeignLineHasNoPayload : Prop :=
  ∀ (nodeId : Byte) (line : Bytes),
    (chSlash ∉ line ∨ chBang ∉ line → ∃ e, framePayload nodeId line = .error e)
    ∧ ∀ before addr after, line = before ++ chSlash :: addr :: after → chSlash ∉ before → addr ≠ nodeId →
        ∃ e, framePayload nodeId line = .error e

/-- Silence (spec/40_frame_extractor.md R112, spec/60_exceptions.md R190, R192, R197; the codes are the spec's own
decision D8, log 23): a line whose outcome has one of the codes 1 to 4 is taken and dropped in two steps; TRACE gains
its `ReadLine` alone, and OUT, the flags and Peripheral State stay. -/
def Obligations.LineWithoutCommandIsSilent : Prop :=
  ∀ (s : State) (b : Bytes) (later : List Bytes), ReadyFor s b later →
    1 ≤ (lineOutcome s.cfg.nodeId b).code → (lineOutcome s.cfg.nodeId b).code ≤ 4 →
    ∃ t, run 2 s = .next t ∧ t.pc = .wait ∧ t.trace = s.trace ++ [.readLine b]
      ∧ t.session = s.session ∧ t.periph = s.periph ∧ t.out = s.out ∧ t.outLen = s.outLen ∧ t.rd = s.rd
      ∧ t.cfg = s.cfg ∧ t.env = { s.env with lines := later }

/-! ### Fetch, reset, boot and the control loop -/

/-- A step runs the command that the payload, and after DISP_BEGIN the registers OP and ARGS, decode to: nothing is
added around `exec` (spec/41_dispatcher.md R121, R132; spec/70_reset_and_hazards.md R225). That `exec` is one
controller step of a command, and that OP and ARGS select the command after DISP_BEGIN, is the model's reading
(log 8). -/
def Obligations.StepRunsDecodedCommand : Prop :=
  ∀ s : State, configOk s.cfg = true → s.env.schedule = [] →
    (∀ p, s.pc = .dispBegin → payload s = .next p → step s = exec (decode p) s)
    ∧ (∀ k, s.pc = .exec k → step s = exec (classify s.work.op s.work.args) s)
    ∧ (s.pc = .reply → step s = exec (classify s.work.op s.work.args) s)
    ∧ (s.pc = .dispEnd → step s = exec (classify s.work.op s.work.args) s)

/-- The values spec/10_state.md R36 gives for reset, and the boot that follows it (spec/70_reset_and_hazards.md R222):
after three steps the block waits with the reference and the ADC on and TRACE as R222 lists it. The reset values are
the spec's own decision D23, the boot order its decision D24 (log 16). -/
def Obligations.ResetThenBootReachesWait : Prop :=
  State.reset.pc = .boot0 ∧ State.reset.session.override = false ∧ State.reset.periph.refOn = false
    ∧ State.reset.periph.adcOn = false ∧ State.reset.periph.dacOutOn = false ∧ State.reset.trace = []
    ∧ ∀ s : State, configOk s.cfg = true → s.env.schedule = [] →
        ∃ t, run 3 (powerUp s) = .next t ∧ t.pc = .wait ∧ t.session = { override := false, ind := false }
          ∧ t.periph.refOn = true ∧ t.periph.adcOn = true ∧ t.periph.dacOutOn = false
          ∧ t.trace = [.refInit, .adcInit, .indSet false]

/-- The three boot steps (spec/70_reset_and_hazards.md R221; their order is the spec's own decision D24, log 16), from
any state in their control state: every other field is unchanged. -/
def Obligations.BootStepsInOrder : Prop :=
  ∀ s : State, configOk s.cfg = true → s.env.schedule = [] →
    (s.pc = .boot0 → step s = .next { s with pc := .boot1, periph := { s.periph with refOn := true }
                                             trace := s.trace ++ [.refInit] })
    ∧ (s.pc = .boot1 → step s = .next { s with pc := .boot2, periph := { s.periph with adcOn := true }
                                               trace := s.trace ++ [.adcInit] })
    ∧ (s.pc = .boot2 → step s = .next { s with pc := .wait, session := { s.session with ind := false }
                                               trace := s.trace ++ [.indSet false] })

/-- WAIT (spec/70_reset_and_hazards.md R224, R226): a delivered line becomes LINE and `pc` EXTRACT, nothing else but
TRACE and the host's queue changing. The model's own: bytes of LINE past the new length hold no value (read from
spec/10_state.md R31, log 4), a silent host leaves the block as it is (log 6), a line the host has no move for is
refused (log 10). -/
def Obligations.WaitTakesOneLine : Prop :=
  ∀ s : State, s.pc = .wait → configOk s.cfg = true → s.env.schedule = [] →
    (∀ b later, s.env.lines = b :: later → deliverable s.cfg b = true →
      ∃ t, step s = .next t
        ∧ t = { s with pc := .extract, line := t.line, lineLen := b.length, trace := s.trace ++ [.readLine b]
                       env := { s.env with lines := later } }
        ∧ ∀ a, t.line.byte? a = b[a]?)
    ∧ (s.env.lines = [] → step s = .next s)
    ∧ (∀ b later, s.env.lines = b :: later → (b.length > s.cfg.inLineMax ∨ 0x0A ∈ b) →
        step s = .refused .lineNotDeliverable)

/-- Reset may come in any control state (spec/70_reset_and_hazards.md R220, R225): `pc`, OVERRIDE, the peripheral flags
and TRACE take R36's values, which are the spec's own decision D23 (log 16); only the parameters survive. That the
buffers then hold nothing (log 3) and that the environment goes on (log 7) is the model's choice. -/
def Obligations.ResetFromAnyState : Prop :=
  ∀ (s : State) (moves : List EnvMove), configOk s.cfg = true → s.env.schedule = .reset :: moves →
    ∃ t, step s = .next t ∧ t.cfg = s.cfg ∧ t.env = { s.env with schedule := moves } ∧ t.pc = .boot0
      ∧ t.session.override = false ∧ t.periph.refOn = false ∧ t.periph.adcOn = false ∧ t.periph.dacOutOn = false
      ∧ t.trace = [] ∧ (∀ a, t.line.byte? a = none ∧ t.out.byte? a = none)

/-- A transaction that never completes leaves the block in the state that issued it, for ever (spec/60_exceptions.md
R207, point 2): in BOOT0 to BOOT2, WAIT, REPLY, EXEC(k) with k < |PLAN|, and DISP_BEGIN and DISP_END with OVERRIDE = 0
(spec/10_state.md R20, spec/70_reset_and_hazards.md R225). Every other step issues none and is not held up. That a run
says so by a move of its schedule is the model's choice (log 7). -/
def Obligations.HungTransactionWaitsForever : Prop :=
  ∀ (s : State) (moves : List EnvMove), configOk s.cfg = true → s.env.schedule = .hang :: moves →
    (AwaitsTransaction s → ∀ n, run n s = .next s)
    ∧ (¬ AwaitsTransaction s → step s = controllerStep s)

/-- The stops outside the block's own outcomes, each by its name, with nothing scheduled: a configuration that breaks
R5 (spec/60_exceptions.md R207); one byte of a buffer read at or past its size (spec/20_memory.md R54) or holding no
value (spec/93_implementation_defined.md U8), bytes written past a size (R54); the reads of EXTRACT, DISP_BEGIN and
REPLY at the first byte they cannot have; a reply that does not fit OUT; an `adcRead` with the reference or the ADC off
(spec/43_sequencer.md R179) and one for which RD has no register (spec/10_state.md R33); a line the host may not
deliver (spec/70_reset_and_hazards.md R224); a command asked for where none is dispatched. The form of each stop is the
model's choice (logs 3, 9, 10, 11, 12). -/
def Obligations.StopsHaveTheirNames : Prop :=
  (∀ s : State, configOk s.cfg = false → step s = .refused .invalidConfig)
    ∧ (∀ (c : Config) (m : Memory) (a : Nat),
        readByte (lineSpace c) m a =
          (if c.inLineMax ≤ a then .refused .lineIndexOutOfRange
           else match m.byte? a with
             | some v => .next v
             | none => .fault .lineByteHoldsNoValue)
        ∧ readByte (outSpace c) m a =
          (if c.outLineMax ≤ a then .refused .outIndexOutOfRange
           else match m.byte? a with
             | some v => .next v
             | none => .fault .outByteHoldsNoValue))
    ∧ (∀ (c : Config) (m : Memory) (lo : Nat) (vs : Bytes),
        (c.inLineMax < lo + vs.length → writeBytes (lineSpace c) m lo vs = .refused .lineIndexOutOfRange)
        ∧ (c.outLineMax < lo + vs.length → writeBytes (outSpace c) m lo vs = .refused .outIndexOutOfRange))
    ∧ (∀ s : State, configOk s.cfg = true → s.env.schedule = [] →
        (∀ j, s.pc = .extract → ReadStopsAt s.cfg.inLineMax s.line 0 s.lineLen j →
          step s = if s.cfg.inLineMax ≤ j then .refused .lineIndexOutOfRange else .fault .lineByteHoldsNoValue)
        ∧ (∀ j, s.pc = .dispBegin → ReadStopsAt s.cfg.inLineMax s.line s.work.payLo s.work.payLen j →
          step s = if s.cfg.inLineMax ≤ s.work.payLo + j then .refused .lineIndexOutOfRange
                   else .fault .lineByteHoldsNoValue)
        ∧ (∀ j, s.pc = .reply → ReadStopsAt s.cfg.outLineMax s.out 0 s.outLen j →
          step s = if s.cfg.outLineMax ≤ j then .refused .outIndexOutOfRange else .fault .outByteHoldsNoValue)
        ∧ (∀ k, s.pc = .exec k → s.work.plan[k]? = none →
          s.cfg.outLineMax < 6 + (dataOf s.cfg s.rd (classify s.work.op s.work.args)).length →
          step s = .refused .outIndexOutOfRange)
        ∧ (∀ k ch, s.pc = .exec k → s.work.plan[k]? = some (.adcRead ch) →
          (s.periph.refOn = false ∨ s.periph.adcOn = false → step s = .refused .adcReadUnpowered)
          ∧ (s.periph.refOn = true → s.periph.adcOn = true → 5 ≤ readsBefore s.work.plan k →
              step s = .refused .noReadingRegister))
        ∧ (∀ b later, s.pc = .wait → s.env.lines = b :: later → (b.length > s.cfg.inLineMax ∨ 0x0A ∈ b) →
          step s = .refused .lineNotDeliverable))
    ∧ (∀ (i : Instr) (s : State), i ≠ .nopEmpty →
        s.pc = .boot0 ∨ s.pc = .boot1 ∨ s.pc = .boot2 ∨ s.pc = .wait ∨ s.pc = .extract →
        exec i s = .refused .notInDispatch)

/-! ### Every command: its entry into the dispatch and its reply -/

/-- `v` (spec/42_commands.md R141): at DISP_BEGIN it plans no transaction and writes no session state; after its last
transaction it assembles `/0v ` VERSION_STRING `#`. -/
def Obligations.VersionPlansAndReplies : Prop :=
  ∀ (s : State) (args : List Token),
    (s.pc = .dispBegin → exec (.v args) s = .next (begun 0x76 args [] false s))
    ∧ (s.pc = .exec s.work.plan.length → configOk s.cfg = true →
        ∃ t, exec (.v args) s = .next t ∧ Assembled 0x76 s.cfg.version s t)

/-- `L` with a value (spec/42_commands.md R142): it sets OVERRIDE, plans one `indicatorSet` of the value's low bit and
echoes that bit. -/
def Obligations.OverridePlansAndReplies : Prop :=
  ∀ (s : State) (value : Token) (rest : List Token),
    (s.pc = .dispBegin → exec (.l value rest) s =
      .next (begun 0x4C (value :: rest) [.indicatorSet (num value % 2 == 1)] true s))
    ∧ (s.pc = .exec s.work.plan.length → configOk s.cfg = true →
        ∃ t, exec (.l value rest) s = .next t
          ∧ Assembled 0x4C (if num value % 2 = 1 then [0x31] else [0x30]) s t)

/-- `L` without a value (spec/42_commands.md R143): no transaction, no session write (the spec's own decision D14,
log 16), ERR_L_NOVALUE. -/
def Obligations.OverrideNoValuePlansAndReplies : Prop :=
  ∀ s : State,
    (s.pc = .dispBegin → exec .lNoValue s = .next (begun 0x4C [] [] false s))
    ∧ (s.pc = .exec s.work.plan.length → configOk s.cfg = true →
        ∃ t, exec .lNoValue s = .next t ∧ Assembled 0x4C s.cfg.errLNoValue s t)

/-- `a` (spec/42_commands.md R144): it plans the five reads in channel order and replies the five readings, one space
between them. -/
def Obligations.AnalogPlansAndReplies : Prop :=
  ∀ (s : State) (args : List Token),
    (s.pc = .dispBegin → exec (.a args) s =
      .next (begun 0x61 args [.adcRead s.cfg.channels[0], .adcRead s.cfg.channels[1], .adcRead s.cfg.channels[2],
        .adcRead s.cfg.channels[3], .adcRead s.cfg.channels[4]] false s))
    ∧ (s.pc = .exec s.work.plan.length → configOk s.cfg = true → ReadingInv s →
        ∃ t, exec (.a args) s = .next t
          ∧ Assembled 0x61 (dec s.rd[0] ++ [chSpace] ++ dec s.rd[1] ++ [chSpace] ++ dec s.rd[2] ++ [chSpace] ++ dec s.rd[3]
              ++ [chSpace] ++ dec s.rd[4]) s t)

/-- `w` with the output on (spec/42_commands.md R145), with or without its flag: it plans `referenceInit`,
`dacSetLevel`, `referenceOutputEnable(true)` at the clamped level (the order is the spec's own decision D18, log 16),
and echoes that level. -/
def Obligations.ReferenceOnPlansAndReplies : Prop :=
  ∀ (s : State) (level : Token) (flag : Option Token) (rest : List Token),
    (s.pc = .dispBegin → exec (.w level flag rest) s =
      .next (begun 0x77 (level :: (flag.toList ++ rest))
        [.referenceInit, .dacSetLevel (clamp (num level)), .referenceOutputEnable true] false s))
    ∧ (s.pc = .exec s.work.plan.length → configOk s.cfg = true →
        ∃ t, exec (.w level flag rest) s = .next t ∧ Assembled 0x77 (dec (clamp (num level)).toNat) s t)

/-- `w` with the output off (spec/42_commands.md R146): it plans `referenceOutputEnable(false)` alone, does not apply
the level (the spec's own decision D17, log 16), and replies `off`. -/
def Obligations.ReferenceOffPlansAndReplies : Prop :=
  ∀ (s : State) (level flag : Token) (rest : List Token),
    (s.pc = .dispBegin → exec (.wOff level flag rest) s =
      .next (begun 0x77 (level :: flag :: rest) [.referenceOutputEnable false] false s))
    ∧ (s.pc = .exec s.work.plan.length → configOk s.cfg = true →
        ∃ t, exec (.wOff level flag rest) s = .next t ∧ Assembled 0x77 [0x6F, 0x66, 0x66] s t)

/-- `w` without an argument (spec/42_commands.md R147): no transaction, ERR_W_MISSING. -/
def Obligations.ReferenceMissingPlansAndReplies : Prop :=
  ∀ s : State,
    (s.pc = .dispBegin → exec .wMissing s = .next (begun 0x77 [] [] false s))
    ∧ (s.pc = .exec s.work.plan.length → configOk s.cfg = true →
        ∃ t, exec .wMissing s = .next t ∧ Assembled 0x77 s.cfg.errWMissing s t)

/-- An unknown opcode (spec/42_commands.md R148): no transaction, ERR_UNKNOWN under the opcode byte it came with. -/
def Obligations.UnknownPlansAndReplies : Prop :=
  ∀ (s : State) (op : Byte) (args : List Token),
    (s.pc = .dispBegin → exec (.unknown op args) s = .next (begun op args [] false s))
    ∧ (s.pc = .exec s.work.plan.length → configOk s.cfg = true →
        ∃ t, exec (.unknown op args) s = .next t ∧ Assembled op s.cfg.errUnknown s t)

/-! ### The shared dispatch steps -/

/-- EXEC(k) with a k-th entry, for every command but the empty payload: the effect spec/43_sequencer.md R177 gives
each HAL transaction, its event, K and `pc`; nothing else changes. A reading comes from the environment's script or
the free value, which the step reads and advances (log 5); the `adcRead`s that stop are in `StopsHaveTheirNames`. -/
def Obligations.HalTransactionEffects : Prop :=
  ∀ (i : Instr) (s : State) (k : Nat), i ≠ .nopEmpty → s.pc = .exec k →
    (s.work.plan[k]? = some .referenceInit → exec i s = .next { s with
      pc := .exec (k + 1), periph := { s.periph with refOn := true }, work := { s.work with k := k + 1 }
      trace := s.trace ++ [.refInit] })
    ∧ (s.work.plan[k]? = some .referenceClose → exec i s = .next { s with
      pc := .exec (k + 1), periph := { s.periph with refOn := false }, work := { s.work with k := k + 1 }
      trace := s.trace ++ [.refClose] })
    ∧ (s.work.plan[k]? = some .adcInit → exec i s = .next { s with
      pc := .exec (k + 1), periph := { s.periph with adcOn := true }, work := { s.work with k := k + 1 }
      trace := s.trace ++ [.adcInit] })
    ∧ (s.work.plan[k]? = some .adcClose → exec i s = .next { s with
      pc := .exec (k + 1), periph := { s.periph with adcOn := false }, work := { s.work with k := k + 1 }
      trace := s.trace ++ [.adcClose] })
    ∧ (∀ l, s.work.plan[k]? = some (.dacSetLevel l) → exec i s = .next { s with
      pc := .exec (k + 1), periph := { s.periph with dacLevel := l }, work := { s.work with k := k + 1 }
      trace := s.trace ++ [.dacSetLevel l] })
    ∧ (∀ b, s.work.plan[k]? = some (.referenceOutputEnable b) → exec i s = .next { s with
      pc := .exec (k + 1), periph := { s.periph with dacOutOn := b }, work := { s.work with k := k + 1 }
      trace := s.trace ++ [.refOutEn b] })
    ∧ (∀ b, s.work.plan[k]? = some (.indicatorSet b) → exec i s = .next { s with
      pc := .exec (k + 1), session := { s.session with ind := b }, work := { s.work with k := k + 1 }
      trace := s.trace ++ [.indSet b] })
    ∧ (∀ ch n, s.work.plan[k]? = some (.adcRead ch) → s.periph.refOn = true → s.periph.adcOn = true →
      n = readsBefore s.work.plan k → n < 5 →
      ∃ t, exec i s = .next t
        ∧ t = { s with pc := .exec (k + 1), rd := t.rd, work := { s.work with k := k + 1 }
                       trace := s.trace ++ [.adcRead ch (nextReading s)], env := s.env.afterReading }
        ∧ nextReading s ≤ s.cfg.adcMax
        ∧ ∀ j, (hj : j < 5) → t.rd[j] = if j = n then nextReading s else s.rd[j])

/-- REPLY, for every command but the empty payload (spec/41_dispatcher.md R121): one `transportWriteLine` of
OUT[0 .. OUT_LEN), then DISP_END or WAIT by the parameter; nothing else changes. -/
def Obligations.ReplyIsTransmittedWhole : Prop :=
  ∀ (i : Instr) (s : State) (reply : Bytes), i ≠ .nopEmpty → s.pc = .reply → s.outLen = reply.length →
    reply.length ≤ s.cfg.outLineMax → Holds s.out 0 reply →
    exec i s = .next { s with pc := if s.cfg.replyBeforeIndOff then .dispEnd else .wait
                              trace := s.trace ++ [.writeLine reply] }

/-- DISP_END, for every command but the empty payload (spec/41_dispatcher.md R121, R123): the indicator goes off exactly
when OVERRIDE is 0; nothing else changes. -/
def Obligations.DispatchEndsWithIndicatorOff : Prop :=
  ∀ (i : Instr) (s : State), i ≠ .nopEmpty → s.pc = .dispEnd →
    (s.session.override = false → exec i s = .next { s with
      pc := if s.cfg.replyBeforeIndOff then .wait else .reply
      session := { s.session with ind := false }, trace := s.trace ++ [.indSet false] })
    ∧ (s.session.override = true → exec i s = .next { s with
      pc := if s.cfg.replyBeforeIndOff then .wait else .reply })

/-! ### Whole cycles: from WAIT with a line to WAIT again -/

/-- The whole cycle of `v` (spec/42_commands.md R141, spec/41_dispatcher.md R120 to R123): one reply, the indicator
around it unless overridden, and no other change but the buffers and working registers. -/
def Obligations.VersionCycle : Prop :=
  ∀ (s : State) (b : Bytes) (later : List Bytes) (args : List Token), ReadyFor s b later →
    decodeLine s.cfg.nodeId b = .ok (.v args) →
    ∃ t, run 6 s = .next t ∧ t.pc = .wait
      ∧ t.trace = s.trace ++ .readLine b ::
          cycleEvents s.cfg s.session.override s.session.override [] (replyBytes 0x76 s.cfg.version)
      ∧ t.session = { override := s.session.override, ind := s.session.override && s.session.ind }
      ∧ t.periph = s.periph ∧ t.rd = s.rd ∧ t.cfg = s.cfg ∧ t.env = { s.env with lines := later }

/-- The whole cycle of `L` with a value (spec/42_commands.md R142, spec/41_dispatcher.md R124): the indicator is left
at the value's low bit and OVERRIDE at 1. -/
def Obligations.OverrideCycle : Prop :=
  ∀ (s : State) (b : Bytes) (later : List Bytes) (value : Token) (rest : List Token), ReadyFor s b later →
    decodeLine s.cfg.nodeId b = .ok (.l value rest) →
    ∃ t, run 7 s = .next t ∧ t.pc = .wait
      ∧ t.trace = s.trace ++ .readLine b ::
          cycleEvents s.cfg s.session.override true [.indSet (num value % 2 == 1)]
            (replyBytes 0x4C (if num value % 2 = 1 then [0x31] else [0x30]))
      ∧ t.session = { override := true, ind := num value % 2 == 1 }
      ∧ t.periph = s.periph ∧ t.rd = s.rd ∧ t.cfg = s.cfg ∧ t.env = { s.env with lines := later }

/-- The whole cycle of `L` without a value (spec/42_commands.md R143): an error reply and no change of OVERRIDE (the
spec's own decision D14, log 16). -/
def Obligations.OverrideNoValueCycle : Prop :=
  ∀ (s : State) (b : Bytes) (later : List Bytes), ReadyFor s b later →
    decodeLine s.cfg.nodeId b = .ok .lNoValue →
    ∃ t, run 6 s = .next t ∧ t.pc = .wait
      ∧ t.trace = s.trace ++ .readLine b ::
          cycleEvents s.cfg s.session.override s.session.override [] (replyBytes 0x4C s.cfg.errLNoValue)
      ∧ t.session = { override := s.session.override, ind := s.session.override && s.session.ind }
      ∧ t.periph = s.periph ∧ t.rd = s.rd ∧ t.cfg = s.cfg ∧ t.env = { s.env with lines := later }

/-- The whole cycle of `a` (spec/42_commands.md R144, spec/43_sequencer.md R174 to R176): the five channels read in
order, each reading in its register and in its place of the reply, Peripheral State unchanged. The readings are the
HAL's, free within 0..ADC_MAX (log 5). -/
def Obligations.AnalogCycle : Prop :=
  ∀ (s : State) (b : Bytes) (later : List Bytes) (args : List Token), ReadyFor s b later →
    decodeLine s.cfg.nodeId b = .ok (.a args) → s.periph.refOn = true → s.periph.adcOn = true →
    ∃ (t : State) (r0 r1 r2 r3 r4 : Nat), run 11 s = .next t ∧ t.pc = .wait
      ∧ r0 = readingNo s 0 ∧ r1 = readingNo s 1 ∧ r2 = readingNo s 2 ∧ r3 = readingNo s 3 ∧ r4 = readingNo s 4
      ∧ r0 ≤ s.cfg.adcMax ∧ r1 ≤ s.cfg.adcMax ∧ r2 ≤ s.cfg.adcMax ∧ r3 ≤ s.cfg.adcMax ∧ r4 ≤ s.cfg.adcMax
      ∧ t.trace = s.trace ++ .readLine b ::
          cycleEvents s.cfg s.session.override s.session.override
            [.adcRead s.cfg.channels[0] r0, .adcRead s.cfg.channels[1] r1, .adcRead s.cfg.channels[2] r2,
             .adcRead s.cfg.channels[3] r3, .adcRead s.cfg.channels[4] r4]
            (replyBytes 0x61 (dec r0 ++ [chSpace] ++ dec r1 ++ [chSpace] ++ dec r2 ++ [chSpace] ++ dec r3 ++ [chSpace] ++ dec r4))
      ∧ t.rd = #v[r0, r1, r2, r3, r4]
      ∧ t.session = { override := s.session.override, ind := s.session.override && s.session.ind }
      ∧ t.periph = s.periph ∧ t.cfg = s.cfg ∧ t.env = { envAfter 5 s.env with lines := later }

/-- The whole cycle of `w` with the output on (spec/42_commands.md R145, spec/43_sequencer.md R171): the three
transactions, in the order of the spec's own decision D18 (log 16), at the clamped level, which is applied and
echoed. -/
def Obligations.ReferenceOnCycle : Prop :=
  ∀ (s : State) (b : Bytes) (later : List Bytes) (level : Token) (flag : Option Token) (rest : List Token),
    ReadyFor s b later → decodeLine s.cfg.nodeId b = .ok (.w level flag rest) →
    ∃ t, run 9 s = .next t ∧ t.pc = .wait
      ∧ t.trace = s.trace ++ .readLine b ::
          cycleEvents s.cfg s.session.override s.session.override
            [.refInit, .dacSetLevel (clamp (num level)), .refOutEn true]
            (replyBytes 0x77 (dec (clamp (num level)).toNat))
      ∧ t.periph = { refOn := true, adcOn := s.periph.adcOn, dacOutOn := true, dacLevel := clamp (num level) }
      ∧ t.session = { override := s.session.override, ind := s.session.override && s.session.ind }
      ∧ t.rd = s.rd ∧ t.cfg = s.cfg ∧ t.env = { s.env with lines := later }

/-- The whole cycle of `w` with the output off (spec/42_commands.md R146, spec/43_sequencer.md R172): the output stage
goes off, the reference, the ADC and the level stay (decision D17, log 16). -/
def Obligations.ReferenceOffCycle : Prop :=
  ∀ (s : State) (b : Bytes) (later : List Bytes) (level flag : Token) (rest : List Token),
    ReadyFor s b later → decodeLine s.cfg.nodeId b = .ok (.wOff level flag rest) →
    ∃ t, run 7 s = .next t ∧ t.pc = .wait
      ∧ t.trace = s.trace ++ .readLine b ::
          cycleEvents s.cfg s.session.override s.session.override [.refOutEn false]
            (replyBytes 0x77 [0x6F, 0x66, 0x66])
      ∧ t.periph = { s.periph with dacOutOn := false }
      ∧ t.session = { override := s.session.override, ind := s.session.override && s.session.ind }
      ∧ t.rd = s.rd ∧ t.cfg = s.cfg ∧ t.env = { s.env with lines := later }

/-- The whole cycle of `w` without an argument (spec/42_commands.md R147): an error reply, Peripheral State unchanged. -/
def Obligations.ReferenceMissingCycle : Prop :=
  ∀ (s : State) (b : Bytes) (later : List Bytes), ReadyFor s b later →
    decodeLine s.cfg.nodeId b = .ok .wMissing →
    ∃ t, run 6 s = .next t ∧ t.pc = .wait
      ∧ t.trace = s.trace ++ .readLine b ::
          cycleEvents s.cfg s.session.override s.session.override [] (replyBytes 0x77 s.cfg.errWMissing)
      ∧ t.session = { override := s.session.override, ind := s.session.override && s.session.ind }
      ∧ t.periph = s.periph ∧ t.rd = s.rd ∧ t.cfg = s.cfg ∧ t.env = { s.env with lines := later }

/-- The whole cycle of an unknown opcode (spec/42_commands.md R148, spec/60_exceptions.md R194): an error reply under
the opcode byte it came with. -/
def Obligations.UnknownCycle : Prop :=
  ∀ (s : State) (b : Bytes) (later : List Bytes) (op : Byte) (args : List Token), ReadyFor s b later →
    decodeLine s.cfg.nodeId b = .ok (.unknown op args) →
    ∃ t, run 6 s = .next t ∧ t.pc = .wait
      ∧ t.trace = s.trace ++ .readLine b ::
          cycleEvents s.cfg s.session.override s.session.override [] (replyBytes op s.cfg.errUnknown)
      ∧ t.session = { override := s.session.override, ind := s.session.override && s.session.ind }
      ∧ t.periph = s.periph ∧ t.rd = s.rd ∧ t.cfg = s.cfg ∧ t.env = { s.env with lines := later }

/-! ### Rules of the whole machine -/

/-- No step changes a build-time parameter, NODE_ID among them, a reset included (spec/00_scope.md R5, spec/10_state.md
R24, spec/70_reset_and_hazards.md R220). -/
def Obligations.ParametersNeverChange : Prop :=
  ∀ s t : State, step s = .next t → t.cfg = s.cfg

/-- The override is sticky (spec/10_state.md R25, spec/70_reset_and_hazards.md R232): no step but a reset clears it,
and only a step of DISP_BEGIN whose payload is `L` with an argument sets it. -/
def Obligations.OverrideIsSticky : Prop :=
  ∀ s t : State, step s = .next t → s.env.schedule.head? ≠ some .reset →
    (s.session.override = true → t.session.override = true)
    ∧ (s.session.override = false → t.session.override = true →
        s.pc = .dispBegin ∧ ∃ p value rest, payload s = .next p ∧ decode p = .l value rest)

/-- Transactions are issued one at a time and recorded in order (spec/20_memory.md R59, spec/70_reset_and_hazards.md
R227): a step other than a reset appends at most one event to TRACE and takes none away. -/
def Obligations.OneTransactionPerStep : Prop :=
  ∀ s t : State, step s = .next t → s.env.schedule.head? ≠ some .reset →
    t.trace = s.trace ∨ ∃ e, t.trace = s.trace ++ [e]

/-- `referenceClose` and `adcClose` are never issued (spec/43_sequencer.md R178), and every `adcRead` is issued with the
reference and the ADC on (R179). -/
def Obligations.ReferenceAndAdcNeverClosed : Prop :=
  ∀ s t : State, MachineInv s → step s = .next t →
    t.trace ≠ s.trace ++ [.refClose] ∧ t.trace ≠ s.trace ++ [.adcClose]
    ∧ ∀ ch r, t.trace = s.trace ++ [.adcRead ch r] → s.periph.refOn = true ∧ s.periph.adcOn = true

/-- REF_ON and ADC_ON, once 1, stay 1 until a reset (spec/10_state.md R28, R29). -/
def Obligations.ReferenceAndAdcStayOn : Prop :=
  ∀ s t : State, MachineInv s → step s = .next t → s.env.schedule.head? ≠ some .reset →
    (s.periph.refOn = true → t.periph.refOn = true) ∧ (s.periph.adcOn = true → t.periph.adcOn = true)

/-- DAC_OUT_ON and DAC_LEVEL are written only while a `w` command is dispatched (spec/10_state.md R30): no other step
completes a `dacSetLevel` or a `referenceOutputEnable`, whether or not the value was held already, and none changes
either field. -/
def Obligations.DacWrittenOnlyByW : Prop :=
  ∀ s t : State, MachineInv s → step s = .next t → s.env.schedule.head? ≠ some .reset →
    (∃ l, t.trace = s.trace ++ [.dacSetLevel l]) ∨ (∃ b, t.trace = s.trace ++ [.refOutEn b])
      ∨ t.periph.dacOutOn ≠ s.periph.dacOutOn ∨ t.periph.dacLevel ≠ s.periph.dacLevel →
    (∃ k, s.pc = .exec k) ∧ s.work.op = 0x77

/-- Both buffers keep their canonical form at every step, from every state that has it, whatever the control state. The
form, addresses strictly rising, is the model's own (log 3). -/
def Obligations.BuffersStayCanonical : Prop :=
  ∀ s t : State, Memory.wf s.line → Memory.wf s.out → step s = .next t → Memory.wf t.line ∧ Memory.wf t.out

/-- The payload is not changed while it is decoded and answered (spec/20_memory.md R62, spec/70_reset_and_hazards.md
R230): from DISP_BEGIN to the next WAIT step LINE, its length and the payload view stay. -/
def Obligations.PayloadStaysDuringDispatch : Prop :=
  ∀ s t : State, step s = .next t → s.env.schedule.head? ≠ some .reset → s.pc ≠ .wait → s.pc ≠ .extract →
    t.line = s.line ∧ t.lineLen = s.lineLen ∧ t.work.payLo = s.work.payLo ∧ t.work.payLen = s.work.payLen

/-- The block takes a line only in WAIT and transmits only in REPLY (spec/60_exceptions.md R198, R203,
spec/70_reset_and_hazards.md R229). -/
def Obligations.LinesOnlyInWaitRepliesOnlyInReply : Prop :=
  ∀ s t : State, step s = .next t →
    (∀ b, t.trace = s.trace ++ [.readLine b] → s.pc = .wait)
    ∧ (∀ b, t.trace = s.trace ++ [.writeLine b] → s.pc = .reply)
    ∧ (t.env.lines ≠ s.env.lines → s.pc = .wait)

/-- State.reset meets the invariant. -/
def Obligations.InvariantHoldsAtReset : Prop :=
  MachineInv State.reset

/-- Every step keeps the invariant: the configuration, the buffers' form and bounds, the peripherals on after boot, the
readings in range, and what each control state finds in the registers. -/
def Obligations.InvariantKeptByStep : Prop :=
  ∀ s t : State, MachineInv s → step s = .next t → MachineInv t

/-- Nothing is fatal (spec/60_exceptions.md R191, R196): under the invariant, and with a host that delivers only lines
it may (spec/70_reset_and_hazards.md R235), every step goes on to a next state. -/
def Obligations.NoStepStops : Prop :=
  ∀ s : State, MachineInv s → HostInv s → ∃ t, step s = .next t ∧ HostInv t

/-- A cycle ends (spec/41_dispatcher.md R134, spec/60_exceptions.md R196), given that every transaction completes: from
every state of a cycle the block is back in WAIT within twelve steps. -/
def Obligations.EveryCycleReturnsToWait : Prop :=
  ∀ s : State, MachineInv s → s.env.schedule = [] →
    ∃ n t, n ≤ 12 ∧ run n s = .next t ∧ t.pc = .wait

/-- Every reply has the form of spec/30_encoding.md R82 and R85: `/0`, the opcode of the command being dispatched, a
space, the data of R83, `#`, LF. -/
def Obligations.EveryReplyHasTheFormat : Prop :=
  ∀ (s t : State) (b : Bytes), MachineInv s → step s = .next t → t.trace = s.trace ++ [.writeLine b] →
    b = [0x2F, 0x30, s.work.op, 0x20] ++ dataOf s.cfg s.rd (classify s.work.op s.work.args) ++ [0x23, 0x0A]

/-- No rule reads a value an earlier cycle wrote into a buffer, RD or a working register (spec/10_state.md R37): two
waiting states that differ only there stay the same in everything else for any number of steps, and stop alike. -/
def Obligations.EarlierCyclesLeaveNoTrace : Prop :=
  ∀ (n : Nat) (s t : State), s.pc = .wait → SameLive s t →
    SameOutcome SameLive (run n s) (run n t)

/-- No command reads IND, DAC_LEVEL or DAC_OUT_ON (spec/42_commands.md R140): states that differ only there step alike,
to states that differ only there. -/
def Obligations.ShadowFieldsAreNotRead : Prop :=
  ∀ s t : State, SameButShadow s t → SameOutcome SameButShadow (step s) (step t)

/-- `setReference` is idempotent on Peripheral State (spec/43_sequencer.md R173): running its transactions a second time
changes none of the four fields, for every level and either flag, while each run records its events. -/
def Obligations.SetReferenceIsIdempotent : Prop :=
  ∀ (s : State) (level : BitVec 8) (enabled : Bool),
    ∃ t u : State,
      (setReference level enabled).foldl (fun x q => andThen x (completeHal q 0)) (.next s) = .next t
      ∧ (setReference level enabled).foldl (fun x q => andThen x (completeHal q 0)) (.next t) = .next u
      ∧ u.periph = t.periph
      ∧ t.periph = (if enabled then { s.periph with refOn := true, dacOutOn := true, dacLevel := level }
                    else { s.periph with dacOutOn := false })
      ∧ t.trace.length = s.trace.length + (setReference level enabled).length
      ∧ u.trace.length = t.trace.length + (setReference level enabled).length
end

