-- ==== Sys2Proof/Laws/State.lean ====
section
/-! SUPPORT. One lemma per field of State per named update: what the update writes, and that it writes nothing else. -/

namespace Sys2Proof.Machine

variable (s : State)

@[simp] theorem goto_cfg (c : Ctrl) : (goto c s).cfg = s.cfg := rfl
@[simp] theorem goto_pc (c : Ctrl) : (goto c s).pc = c := rfl
@[simp] theorem goto_session (c : Ctrl) : (goto c s).session = s.session := rfl
@[simp] theorem goto_periph (c : Ctrl) : (goto c s).periph = s.periph := rfl
@[simp] theorem goto_line (c : Ctrl) : (goto c s).line = s.line := rfl
@[simp] theorem goto_lineLen (c : Ctrl) : (goto c s).lineLen = s.lineLen := rfl
@[simp] theorem goto_out (c : Ctrl) : (goto c s).out = s.out := rfl
@[simp] theorem goto_outLen (c : Ctrl) : (goto c s).outLen = s.outLen := rfl
@[simp] theorem goto_rd (c : Ctrl) : (goto c s).rd = s.rd := rfl
@[simp] theorem goto_work (c : Ctrl) : (goto c s).work = s.work := rfl
@[simp] theorem goto_trace (c : Ctrl) : (goto c s).trace = s.trace := rfl
@[simp] theorem goto_env (c : Ctrl) : (goto c s).env = s.env := rfl

@[simp] theorem record_cfg (e : Event) : (record e s).cfg = s.cfg := rfl
@[simp] theorem record_pc (e : Event) : (record e s).pc = s.pc := rfl
@[simp] theorem record_session (e : Event) : (record e s).session = s.session := rfl
@[simp] theorem record_periph (e : Event) : (record e s).periph = s.periph := rfl
@[simp] theorem record_line (e : Event) : (record e s).line = s.line := rfl
@[simp] theorem record_lineLen (e : Event) : (record e s).lineLen = s.lineLen := rfl
@[simp] theorem record_out (e : Event) : (record e s).out = s.out := rfl
@[simp] theorem record_outLen (e : Event) : (record e s).outLen = s.outLen := rfl
@[simp] theorem record_rd (e : Event) : (record e s).rd = s.rd := rfl
@[simp] theorem record_work (e : Event) : (record e s).work = s.work := rfl
@[simp] theorem record_trace (e : Event) : (record e s).trace = s.trace ++ [e] := rfl
@[simp] theorem record_env (e : Event) : (record e s).env = s.env := rfl

@[simp] theorem indicate_cfg (b : Bool) : (indicate b s).cfg = s.cfg := rfl
@[simp] theorem indicate_pc (b : Bool) : (indicate b s).pc = s.pc := rfl
@[simp] theorem indicate_session (b : Bool) : (indicate b s).session = { s.session with ind := b } := rfl
@[simp] theorem indicate_periph (b : Bool) : (indicate b s).periph = s.periph := rfl
@[simp] theorem indicate_line (b : Bool) : (indicate b s).line = s.line := rfl
@[simp] theorem indicate_lineLen (b : Bool) : (indicate b s).lineLen = s.lineLen := rfl
@[simp] theorem indicate_out (b : Bool) : (indicate b s).out = s.out := rfl
@[simp] theorem indicate_outLen (b : Bool) : (indicate b s).outLen = s.outLen := rfl
@[simp] theorem indicate_rd (b : Bool) : (indicate b s).rd = s.rd := rfl
@[simp] theorem indicate_work (b : Bool) : (indicate b s).work = s.work := rfl
@[simp] theorem indicate_trace (b : Bool) : (indicate b s).trace = s.trace ++ [.indSet b] := rfl
@[simp] theorem indicate_env (b : Bool) : (indicate b s).env = s.env := rfl

@[simp] theorem storeReading_cfg (ch : ChannelId) (i : Nat) : (storeReading ch i s).cfg = s.cfg := rfl
@[simp] theorem storeReading_pc (ch : ChannelId) (i : Nat) : (storeReading ch i s).pc = s.pc := rfl
@[simp] theorem storeReading_session (ch : ChannelId) (i : Nat) : (storeReading ch i s).session = s.session := rfl
@[simp] theorem storeReading_periph (ch : ChannelId) (i : Nat) : (storeReading ch i s).periph = s.periph := rfl
@[simp] theorem storeReading_line (ch : ChannelId) (i : Nat) : (storeReading ch i s).line = s.line := rfl
@[simp] theorem storeReading_lineLen (ch : ChannelId) (i : Nat) : (storeReading ch i s).lineLen = s.lineLen := rfl
@[simp] theorem storeReading_out (ch : ChannelId) (i : Nat) : (storeReading ch i s).out = s.out := rfl
@[simp] theorem storeReading_outLen (ch : ChannelId) (i : Nat) : (storeReading ch i s).outLen = s.outLen := rfl
@[simp] theorem storeReading_rd (ch : ChannelId) (i : Nat) : (storeReading ch i s).rd = s.rd.setIfInBounds i (nextReading s) := rfl
@[simp] theorem storeReading_work (ch : ChannelId) (i : Nat) : (storeReading ch i s).work = s.work := rfl
@[simp] theorem storeReading_trace (ch : ChannelId) (i : Nat) : (storeReading ch i s).trace = s.trace ++ [.adcRead ch (nextReading s)] := rfl
@[simp] theorem storeReading_env (ch : ChannelId) (i : Nat) : (storeReading ch i s).env = s.env.afterReading := rfl

@[simp] theorem receiveLine_cfg (b : Bytes) : (receiveLine b s).cfg = s.cfg := rfl
@[simp] theorem receiveLine_pc (b : Bytes) : (receiveLine b s).pc = s.pc := rfl
@[simp] theorem receiveLine_session (b : Bytes) : (receiveLine b s).session = s.session := rfl
@[simp] theorem receiveLine_periph (b : Bytes) : (receiveLine b s).periph = s.periph := rfl
@[simp] theorem receiveLine_line (b : Bytes) : (receiveLine b s).line = Memory.setBytes [] 0 b := rfl
@[simp] theorem receiveLine_lineLen (b : Bytes) : (receiveLine b s).lineLen = b.length := rfl
@[simp] theorem receiveLine_out (b : Bytes) : (receiveLine b s).out = s.out := rfl
@[simp] theorem receiveLine_outLen (b : Bytes) : (receiveLine b s).outLen = s.outLen := rfl
@[simp] theorem receiveLine_rd (b : Bytes) : (receiveLine b s).rd = s.rd := rfl
@[simp] theorem receiveLine_work (b : Bytes) : (receiveLine b s).work = s.work := rfl
@[simp] theorem receiveLine_trace (b : Bytes) : (receiveLine b s).trace = s.trace ++ [.readLine b] := rfl
@[simp] theorem receiveLine_env (b : Bytes) : (receiveLine b s).env = s.env := rfl

@[simp] theorem withSchedule_cfg (moves : List EnvMove) : (withSchedule moves s).cfg = s.cfg := rfl
@[simp] theorem withSchedule_pc (moves : List EnvMove) : (withSchedule moves s).pc = s.pc := rfl
@[simp] theorem withSchedule_session (moves : List EnvMove) : (withSchedule moves s).session = s.session := rfl
@[simp] theorem withSchedule_periph (moves : List EnvMove) : (withSchedule moves s).periph = s.periph := rfl
@[simp] theorem withSchedule_line (moves : List EnvMove) : (withSchedule moves s).line = s.line := rfl
@[simp] theorem withSchedule_lineLen (moves : List EnvMove) : (withSchedule moves s).lineLen = s.lineLen := rfl
@[simp] theorem withSchedule_out (moves : List EnvMove) : (withSchedule moves s).out = s.out := rfl
@[simp] theorem withSchedule_outLen (moves : List EnvMove) : (withSchedule moves s).outLen = s.outLen := rfl
@[simp] theorem withSchedule_rd (moves : List EnvMove) : (withSchedule moves s).rd = s.rd := rfl
@[simp] theorem withSchedule_work (moves : List EnvMove) : (withSchedule moves s).work = s.work := rfl
@[simp] theorem withSchedule_trace (moves : List EnvMove) : (withSchedule moves s).trace = s.trace := rfl
@[simp] theorem withSchedule_env (moves : List EnvMove) : (withSchedule moves s).env = { s.env with schedule := moves } := rfl

@[simp] theorem powerUp_cfg : (powerUp s).cfg = s.cfg := rfl
@[simp] theorem powerUp_pc : (powerUp s).pc = State.reset.pc := rfl
@[simp] theorem powerUp_session : (powerUp s).session = State.reset.session := rfl
@[simp] theorem powerUp_periph : (powerUp s).periph = State.reset.periph := rfl
@[simp] theorem powerUp_line : (powerUp s).line = State.reset.line := rfl
@[simp] theorem powerUp_lineLen : (powerUp s).lineLen = State.reset.lineLen := rfl
@[simp] theorem powerUp_out : (powerUp s).out = State.reset.out := rfl
@[simp] theorem powerUp_outLen : (powerUp s).outLen = State.reset.outLen := rfl
@[simp] theorem powerUp_rd : (powerUp s).rd = State.reset.rd := rfl
@[simp] theorem powerUp_work : (powerUp s).work = State.reset.work := rfl
@[simp] theorem powerUp_trace : (powerUp s).trace = State.reset.trace := rfl
@[simp] theorem powerUp_env : (powerUp s).env = s.env := rfl

@[simp] theorem autoIndicate_cfg (b : Bool) : (autoIndicate b s).cfg = s.cfg := by unfold autoIndicate; split <;> rfl
@[simp] theorem autoIndicate_pc (b : Bool) : (autoIndicate b s).pc = s.pc := by unfold autoIndicate; split <;> rfl
@[simp] theorem autoIndicate_periph (b : Bool) : (autoIndicate b s).periph = s.periph := by unfold autoIndicate; split <;> rfl
@[simp] theorem autoIndicate_line (b : Bool) : (autoIndicate b s).line = s.line := by unfold autoIndicate; split <;> rfl
@[simp] theorem autoIndicate_lineLen (b : Bool) : (autoIndicate b s).lineLen = s.lineLen := by unfold autoIndicate; split <;> rfl
@[simp] theorem autoIndicate_out (b : Bool) : (autoIndicate b s).out = s.out := by unfold autoIndicate; split <;> rfl
@[simp] theorem autoIndicate_outLen (b : Bool) : (autoIndicate b s).outLen = s.outLen := by unfold autoIndicate; split <;> rfl
@[simp] theorem autoIndicate_rd (b : Bool) : (autoIndicate b s).rd = s.rd := by unfold autoIndicate; split <;> rfl
@[simp] theorem autoIndicate_work (b : Bool) : (autoIndicate b s).work = s.work := by unfold autoIndicate; split <;> rfl
@[simp] theorem autoIndicate_env (b : Bool) : (autoIndicate b s).env = s.env := by unfold autoIndicate; split <;> rfl

@[simp] theorem writeOverride_cfg (sets : Bool) : (writeOverride sets s).cfg = s.cfg := by unfold writeOverride; split <;> rfl
@[simp] theorem writeOverride_pc (sets : Bool) : (writeOverride sets s).pc = s.pc := by unfold writeOverride; split <;> rfl
@[simp] theorem writeOverride_periph (sets : Bool) : (writeOverride sets s).periph = s.periph := by unfold writeOverride; split <;> rfl
@[simp] theorem writeOverride_line (sets : Bool) : (writeOverride sets s).line = s.line := by unfold writeOverride; split <;> rfl
@[simp] theorem writeOverride_lineLen (sets : Bool) : (writeOverride sets s).lineLen = s.lineLen := by unfold writeOverride; split <;> rfl
@[simp] theorem writeOverride_out (sets : Bool) : (writeOverride sets s).out = s.out := by unfold writeOverride; split <;> rfl
@[simp] theorem writeOverride_outLen (sets : Bool) : (writeOverride sets s).outLen = s.outLen := by unfold writeOverride; split <;> rfl
@[simp] theorem writeOverride_rd (sets : Bool) : (writeOverride sets s).rd = s.rd := by unfold writeOverride; split <;> rfl
@[simp] theorem writeOverride_work (sets : Bool) : (writeOverride sets s).work = s.work := by unfold writeOverride; split <;> rfl
@[simp] theorem writeOverride_trace (sets : Bool) : (writeOverride sets s).trace = s.trace := by unfold writeOverride; split <;> rfl
@[simp] theorem writeOverride_env (sets : Bool) : (writeOverride sets s).env = s.env := by unfold writeOverride; split <;> rfl

/-- R122, R123: what the automatic indicator transaction does to the flags. -/
@[simp] theorem autoIndicate_session (b : Bool) :
    (autoIndicate b s).session = { s.session with ind := if s.session.override then s.session.ind else b } := by
  cases hs : s.session with
  | mk o i => unfold autoIndicate; rw [hs]; cases o <;> simp [hs]

/-- R122, R123: its event. -/
@[simp] theorem autoIndicate_trace (b : Bool) :
    (autoIndicate b s).trace = s.trace ++ (if s.session.override then [] else [.indSet b]) := by
  unfold autoIndicate; split <;> simp

/-- R142: OVERRIDE after a handler's session write. -/
@[simp] theorem writeOverride_session (sets : Bool) :
    (writeOverride sets s).session = { s.session with override := s.session.override || sets } := by
  cases hs : s.session with
  | mk o i => unfold writeOverride; cases sets <;> simp [hs]

/-- Reading the environment's next answer leaves the host's lines and the schedule. -/
@[simp] theorem afterReading_lines (e : Env) : e.afterReading.lines = e.lines := by
  unfold Env.afterReading; split <;> rfl

@[simp] theorem afterReading_schedule (e : Env) : e.afterReading.schedule = e.schedule := by
  unfold Env.afterReading; split <;> rfl

/-- Every reading is within 0..ADC_MAX (R33). -/
theorem nextReading_le : nextReading s ≤ s.cfg.adcMax := by
  unfold nextReading boundReading; split <;> exact Nat.lt_succ_iff.mp (Nat.mod_lt _ (Nat.succ_pos _))

/-- Two states with one environment and one ADC_MAX get the same reading. -/
theorem nextReading_congr {s t : State} (he : s.env = t.env) (hc : s.cfg = t.cfg) : nextReading s = nextReading t := by
  unfold nextReading; rw [he, hc]

end Sys2Proof.Machine
end

