-- ==== Sys2Proof/Laws/Memory.lean ====
section
/-! SUPPORT. The laws of the buffers: read after write, the canonical form, and what a transfer of several bytes reads
or writes. -/

namespace Sys2Proof.Machine

/-- A write is read back, and leaves every other address alone. -/
theorem byte?_set (m : Memory) (a : Nat) (v : Byte) (b : Nat) :
    (m.set a v).byte? b = if b = a then some v else m.byte? b := by
  induction m with
  | nil => simp [Memory.set, Memory.byte?]
  | cons c rest ih =>
    obtain ⟨k, u⟩ := c
    simp only [Memory.set]
    split
    · simp [Memory.byte?]
    · split
      · subst_vars; simp only [Memory.byte?]; split <;> simp_all
      · simp only [Memory.byte?, ih]; split <;> split <;> simp_all

/-- Writing several bytes: each is read back, every other address is left alone. -/
theorem byte?_setBytes (m : Memory) (lo : Nat) (vs : Bytes) (a : Nat) :
    (m.setBytes lo vs).byte? a = if lo ≤ a ∧ a < lo + vs.length then vs[a - lo]? else m.byte? a := by
  induction vs generalizing m lo with
  | nil => simp [Memory.setBytes]
  | cons v rest ih =>
    simp only [Memory.setBytes, ih, byte?_set, List.length_cons]
    by_cases h : a = lo
    · subst h; simp
    · by_cases h2 : lo + 1 ≤ a ∧ a < lo + 1 + rest.length
      · have : a - lo = (a - (lo + 1)) + 1 := by omega
        rw [if_pos h2, if_pos (by omega), this, List.getElem?_cons_succ]
      · rw [if_neg h2, if_neg h, if_neg (by omega)]

/-- The addresses after a write are the old ones and the written one. -/
theorem mem_set {m : Memory} {a : Nat} {v : Byte} {c : Host.Cell} (h : c ∈ m.set a v) : c = (a, v) ∨ c ∈ m := by
  induction m with
  | nil => simpa [Memory.set] using h
  | cons d rest ih =>
    simp only [Memory.set] at h
    split at h
    · simpa using h
    · split at h
      · simp at h ⊢; tauto
      · simp at h ⊢
        rcases h with h | h
        · tauto
        · rcases ih h with h | h <;> tauto

/-- A write keeps the canonical form. -/
theorem wf_set {m : Memory} (h : Memory.wf m) (a : Nat) (v : Byte) : Memory.wf (m.set a v) := by
  induction m with
  | nil => simp [Memory.set, Memory.wf]
  | cons d rest ih =>
    obtain ⟨k, u⟩ := d
    simp only [Memory.wf, List.pairwise_cons] at h ih ⊢
    simp only [Memory.set]
    split
    · rename_i hk
      refine List.pairwise_cons.mpr ⟨fun c hc => ?_, List.pairwise_cons.mpr h⟩
      rcases List.mem_cons.mp hc with rfl | hc
      · exact hk
      · exact Nat.lt_trans hk (h.1 c hc)
    · split
      · subst_vars; exact List.pairwise_cons.mpr h
      · refine List.pairwise_cons.mpr ⟨fun c hc => ?_, ih h.2⟩
        rcases mem_set hc with rfl | hc
        · show k < a; omega
        · exact h.1 c hc

/-- Writing several bytes keeps the canonical form. -/
theorem wf_setBytes {m : Memory} (h : Memory.wf m) (lo : Nat) (vs : Bytes) : Memory.wf (m.setBytes lo vs) := by
  induction vs generalizing m lo with
  | nil => exact h
  | cons v rest ih => exact ih (wf_set h lo v) (lo + 1)

/-- The empty memory is canonical: State.reset's buffers are. -/
theorem wf_nil : Memory.wf [] := List.Pairwise.nil

/-- The addresses after writing several bytes: old ones, or within the written range. -/
theorem mem_setBytes {m : Memory} {lo : Nat} {vs : Bytes} {c : Host.Cell} (h : c ∈ m.setBytes lo vs) :
    c ∈ m ∨ c.1 < lo + vs.length := by
  induction vs generalizing m lo with
  | nil => exact .inl h
  | cons v rest ih =>
    rcases ih h with h | h
    · rcases mem_set h with rfl | h
      · exact .inr (by simp)
      · exact .inl h
    · exact .inr (by simp only [List.length_cons]; omega)

/-- `andThen` gives a next value exactly when both parts do. -/
theorem andThen_eq_next {α β : Type} {x : Result α} {f : α → Result β} {b : β} :
    andThen x f = .next b ↔ ∃ a, x = .next a ∧ f a = .next b := by
  cases x <;> simp [andThen]

@[simp] theorem andThen_next {α β : Type} (a : α) (f : α → Result β) : andThen (.next a) f = f a := rfl

@[simp] theorem andThen_fault {α β : Type} (e : Fault) (f : α → Result β) : andThen (.fault e) f = .fault e := rfl

@[simp] theorem andThen_refused {α β : Type} (r : Refusal) (f : α → Result β) :
    andThen (.refused r) f = .refused r := rfl

@[simp] theorem lineSpace_size (c : Config) : (lineSpace c).size = c.inLineMax := rfl

@[simp] theorem outSpace_size (c : Config) : (outSpace c).size = c.outLineMax := rfl

/-- A buffer that holds `vs` from `lo` on, within its size, reads as `vs` there. -/
theorem readBytes_of_holds {sp : Space} {m : Memory} {lo : Nat} {vs : Bytes} (hs : lo + vs.length ≤ sp.size)
    (h : Holds m lo vs) : readBytes sp m lo vs.length = .next vs := by
  induction vs generalizing lo with
  | nil => rfl
  | cons v rest ih =>
    have h0 : m.byte? lo = some v := by simpa using h 0 (by simp)
    have hr : Holds m (lo + 1) rest := fun i hi => by
      have := h (i + 1) (by simpa using hi)
      rwa [List.getElem?_cons_succ, show lo + (i + 1) = lo + 1 + i by omega] at this
    simp only [List.length_cons] at hs
    simp [readBytes, readByte, h0, show lo < sp.size by omega, ih (by omega) hr]

/-- What a read of several bytes gave stood in the buffer, within its size. -/
theorem holds_of_readBytes {sp : Space} {m : Memory} {lo n : Nat} {vs : Bytes}
    (h : readBytes sp m lo n = .next vs) : vs.length = n ∧ Holds m lo vs ∧ (n = 0 ∨ lo + n ≤ sp.size) := by
  induction n generalizing lo vs with
  | zero => cases h; simp [Holds]
  | succ n ih =>
    obtain ⟨v, hv, h⟩ := andThen_eq_next.mp h
    obtain ⟨rest, hr, h⟩ := andThen_eq_next.mp h
    cases h
    obtain ⟨hl, hh, hb⟩ := ih hr
    have hv' : lo < sp.size ∧ m.byte? lo = some v := by
      unfold readByte at hv
      split at hv
      · split at hv
        · cases hv; exact ⟨‹_›, ‹_›⟩
        · cases hv
      · cases hv
    refine ⟨by simp [hl], fun i hi => ?_, .inr (by omega)⟩
    cases i with
    | zero => simpa using hv'.2
    | succ i =>
      rw [List.getElem?_cons_succ, show lo + (i + 1) = lo + 1 + i by omega]
      exact hh i (by simpa using hi)

/-- Where every byte holds a value, a read within the size gives them. -/
theorem readBytes_of_holdsValues {sp : Space} {m : Memory} {lo n : Nat} (hs : lo + n ≤ sp.size)
    (h : HoldsValues m lo n) : ∃ vs, readBytes sp m lo n = .next vs := by
  induction n generalizing lo with
  | zero => exact ⟨[], rfl⟩
  | succ n ih =>
    obtain ⟨v, hv⟩ := Option.isSome_iff_exists.mp (h 0 (by omega))
    obtain ⟨rest, hr⟩ := ih (lo := lo + 1) (by omega) fun i hi => by
      have := h (i + 1) (by omega)
      rwa [show lo + (i + 1) = lo + 1 + i by omega] at this
    refine ⟨v :: rest, ?_⟩
    simp only [Nat.add_zero] at hv
    simp [readBytes, readByte, hv, show lo < sp.size by omega, hr]

/-- A read stops at the first byte it cannot have: past the size by the space's refusal, else by its fault. -/
theorem readBytes_of_stopsAt {sp : Space} {m : Memory} {lo n j : Nat} (h : ReadStopsAt sp.size m lo n j) :
    readBytes sp m lo n = if sp.size ≤ lo + j then .refused sp.outOfRange else .fault sp.holdsNoValue := by
  obtain ⟨hj, hb, hs⟩ := h
  induction j generalizing lo n with
  | zero =>
    obtain ⟨n, rfl⟩ : ∃ k, n = k + 1 := ⟨n - 1, by omega⟩
    by_cases hz : sp.size ≤ lo
    · simp [readBytes, readByte, show ¬ lo < sp.size by omega, hz]
    · have hn : m.byte? lo = none := by simpa [hz] using hs
      simp [readBytes, readByte, hn, show lo < sp.size by omega, hz]
  | succ j ih =>
    obtain ⟨n, rfl⟩ : ∃ k, n = k + 1 := ⟨n - 1, by omega⟩
    obtain ⟨hl, hv⟩ := hb 0 (by omega)
    obtain ⟨v, hv⟩ := Option.isSome_iff_exists.mp hv
    rw [Nat.add_zero] at hl hv
    rw [show lo + (j + 1) = lo + 1 + j by omega] at hs ⊢
    have hr := ih (lo := lo + 1) (n := n) (by omega)
      (fun i hi => by rw [show lo + 1 + i = lo + (i + 1) by omega]; exact hb (i + 1) (by omega)) hs
    simp only [readBytes, readByte, hl, if_pos, hv, andThen_next, hr]
    split <;> rfl

/-- A read depends only on the bytes it reads. -/
theorem readBytes_congr {sp : Space} {m m' : Memory} {lo n : Nat}
    (h : ∀ a, lo ≤ a → a < lo + n → m.byte? a = m'.byte? a) : readBytes sp m lo n = readBytes sp m' lo n := by
  induction n generalizing lo with
  | zero => rfl
  | succ n ih =>
    have h0 : readByte sp m lo = readByte sp m' lo := by
      unfold readByte; rw [h lo (Nat.le_refl _) (by omega)]
    have h1 : readBytes sp m (lo + 1) n = readBytes sp m' (lo + 1) n :=
      ih fun a ha hb => h a (by omega) (by omega)
    simp only [readBytes, h0, h1]

/-- A write within the size answers the written buffer, past it the space's refusal (R54). -/
theorem writeBytes_eq_next {sp : Space} {m m' : Memory} {lo : Nat} {vs : Bytes} :
    writeBytes sp m lo vs = .next m' ↔ lo + vs.length ≤ sp.size ∧ m' = m.setBytes lo vs := by
  unfold writeBytes; split <;> simp_all [eq_comm]

end Sys2Proof.Machine
end

