-- ==== Sys2Proof/Laws/Exec.lean ====
section
/-! SUPPORT. What the dispatch steps and the controller's step can do, said once: provers cite these instead of
unfolding `exec` and `step`. -/

namespace Sys2Proof.Machine

/-- The handler a command runs, in a state; the empty payload runs none (its row here is never used). -/
def handlerOf (i : Instr) (s : State) : Handler where
  op := match i.fields with
    | none => 0
    | some f => f.1
  args := match i.fields with
    | none => []
    | some f => f.2
  plan := planOf s.cfg i
  setsOverride := writesOverride i
  data := dataOf s.cfg s.rd i

/-- Five channels, read one after the other (R174, R176). -/
theorem readChannels_toList (v : Vector ChannelId 5) :
    readChannels v.toList = [.adcRead v[0], .adcRead v[1], .adcRead v[2], .adcRead v[3], .adcRead v[4]] := by
  rcases v with ⟨⟨l⟩, hl⟩
  match l, hl with
  | [a, b, c, d, e], _ => rfl

/-- Every command but the empty payload is its handler run through the shared dispatch (R121, R132). -/
theorem exec_eq_runHandler {i : Instr} (h : i ≠ .nopEmpty) (s : State) : exec i s = runHandler (handlerOf i s) s := by
  cases i with
  | nopEmpty => exact absurd rfl h
  | a args =>
    show runHandler (handlerA args s.cfg s.rd) s = _
    congr 1
    simp [handlerA, handlerOf, readChannels_toList, planOf, writesOverride, dataOf, readingsText, Instr.fields]
  | w level flag rest => cases flag <;> rfl
  | _ => rfl

/-- DISP_BEGIN writes exactly what `begun` says (R121, R122, R142). -/
theorem beginDispatch_eq_begun (h : Handler) (s : State) :
    beginDispatch h s = begun h.op h.args h.plan h.setsOverride s := by
  obtain ⟨op, args, plan, sets, data⟩ := h
  obtain ⟨cfg, pc, ⟨o, i⟩, per, line, ll, out, ol, rd, work, tr, env⟩ := s
  cases o <;> cases sets <;> simp [beginDispatch, begun, writeOverride, autoIndicate, indicate, record, goto]

/-- The classification loses nothing: opcode and tokens are those it was made from. -/
theorem classify_fields (op : Byte) (args : List Token) : (classify op args).fields = some (op, args) := by
  unfold classify
  split
  · simp_all [Instr.fields]
  · split
    · cases args <;> simp_all [Instr.fields]
    · split
      · simp_all [Instr.fields]
      · split
        · match args with
          | [] => simp_all [Instr.fields]
          | [_] => simp_all [Instr.fields]
          | _ :: _ :: _ => simp only []; split <;> simp_all [Instr.fields]
        · simp [Instr.fields]

/-- No opcode is the empty payload's no-op. -/
theorem classify_ne_nopEmpty (op : Byte) (args : List Token) : classify op args ≠ .nopEmpty := by
  intro h
  have := classify_fields op args
  rw [h] at this
  cases this

/-- What a completed HAL transaction leaves alone (R177): everything but IND, Peripheral State, RD, TRACE and the
environment's readings. -/
theorem completeHal_frame {q : HalReq} {i : Nat} {s t : State} (h : completeHal q i s = .next t) :
    t.cfg = s.cfg ∧ t.pc = s.pc ∧ t.session.override = s.session.override ∧ t.line = s.line ∧ t.lineLen = s.lineLen
      ∧ t.out = s.out ∧ t.outLen = s.outLen ∧ t.work = s.work ∧ t.env.lines = s.env.lines
      ∧ t.env.schedule = s.env.schedule ∧ ∃ e, t.trace = s.trace ++ [e] := by
  cases q with
  | adcRead ch =>
    simp only [completeHal] at h
    split at h
    · split at h
      · cases h; simp
      · cases h
    · cases h
  | _ => simp only [completeHal] at h; cases h; simp

/-- EXEC(k) with a k-th entry, taken apart (R121). -/
theorem issueEntry_cases {k : Nat} {q : HalReq} {s t : State} (h : issueEntry k q s = .next t) :
    ∃ u, completeHal q (readIndex s.work.plan k) s = .next u
      ∧ t = { u with pc := .exec (k + 1), work := { u.work with k := k + 1 } } := by
  obtain ⟨u, hu, h⟩ := andThen_eq_next.mp h
  cases h
  exact ⟨u, hu, rfl⟩

/-- Reply assembly, taken apart (R133). -/
theorem assembleReply_cases {h : Handler} {s t : State} (ht : assembleReply h s = .next t) :
    (replyBytes h.op h.data).length ≤ s.cfg.outLineMax
      ∧ t = { s with pc := afterAssembly s.cfg, out := s.out.setBytes 0 (replyBytes h.op h.data)
                     outLen := (replyBytes h.op h.data).length } := by
  obtain ⟨m, hm, ht⟩ := andThen_eq_next.mp ht
  obtain ⟨hl, rfl⟩ := writeBytes_eq_next.mp hm
  cases ht
  exact ⟨by simpa using hl, rfl⟩

/-- REPLY, taken apart (R121). -/
theorem emitReply_cases {s t : State} (h : emitReply s = .next t) :
    ∃ bs, readBytes (outSpace s.cfg) s.out 0 s.outLen = .next bs
      ∧ t = { s with pc := afterReply s.cfg, trace := s.trace ++ [.writeLine bs] } := by
  obtain ⟨bs, hb, h⟩ := andThen_eq_next.mp h
  cases h
  exact ⟨bs, hb, rfl⟩

/-- A command's step goes on only in the dispatch's control states, and then as one of these (R121). -/
theorem runHandler_cases {h : Handler} {s t : State} (ht : runHandler h s = .next t) :
    (s.pc = .dispBegin ∧ t = begun h.op h.args h.plan h.setsOverride s)
    ∨ (∃ k q, s.pc = .exec k ∧ s.work.plan[k]? = some q ∧ issueEntry k q s = .next t)
    ∨ (∃ k, s.pc = .exec k ∧ s.work.plan[k]? = none ∧ assembleReply h s = .next t)
    ∨ (s.pc = .reply ∧ emitReply s = .next t)
    ∨ (s.pc = .dispEnd ∧ t = endDispatch s) := by
  unfold runHandler at ht
  split at ht
  · cases ht; exact .inl ⟨‹_›, beginDispatch_eq_begun h s⟩
  · split at ht
    · exact .inr (.inl ⟨_, _, ‹_›, ‹_›, ht⟩)
    · exact .inr (.inr (.inl ⟨_, ‹_›, ‹_›, ht⟩))
  · exact .inr (.inr (.inr (.inl ⟨‹_›, ht⟩)))
  · cases ht; exact .inr (.inr (.inr (.inr ⟨‹_›, rfl⟩)))
  all_goals cases ht

/-- The transactions a step can wait for are those of R20 and R225. -/
theorem issuesTransaction_iff (s : State) : issuesTransaction s = true ↔ AwaitsTransaction s := by
  unfold issuesTransaction AwaitsTransaction
  cases s.pc <;> simp

/-- Which read of its plan an entry is, counted as the statements count it. -/
theorem readIndex_eq_readsBefore (plan : List HalReq) (k : Nat) : readIndex plan k = readsBefore plan k := by
  unfold readIndex readsBefore
  exact List.countP_eq_length_filter

/-- The configuration check, taken apart. -/
theorem ifConfigured_eq_next {c : Config} {x : Result State} {t : State} :
    ifConfigured c x = .next t ↔ configOk c = true ∧ x = .next t := by
  unfold ifConfigured; split <;> simp_all

/-- The configuration check of a valid configuration changes nothing. -/
theorem ifConfigured_of_ok {c : Config} (h : configOk c = true) (x : Result State) : ifConfigured c x = x := by
  unfold ifConfigured; rw [if_pos h]

/-- An invalid configuration is refused, whatever the environment's move. -/
theorem step_of_invalid {s : State} (h : configOk s.cfg = false) : step s = .refused .invalidConfig := by
  unfold step scheduledStep ifConfigured; split <;> simp [h]

/-- A machine step goes on only under a valid configuration, and then by one of the environment's moves (R207, R220). -/
theorem step_cases {s t : State} (h : step s = .next t) :
    configOk s.cfg = true ∧
      ((s.env.schedule = [] ∧ controllerStep s = .next t)
      ∨ (∃ moves, s.env.schedule = .proceed :: moves ∧ controllerStep (withSchedule moves s) = .next t)
      ∨ (∃ moves, s.env.schedule = .hang :: moves ∧ issuesTransaction s = true ∧ t = s)
      ∨ (∃ moves, s.env.schedule = .hang :: moves ∧ issuesTransaction s = false ∧ controllerStep s = .next t)
      ∨ (∃ moves, s.env.schedule = .reset :: moves ∧ t = powerUp (withSchedule moves s))) := by
  unfold step scheduledStep at h
  split at h <;> obtain ⟨hc, h⟩ := ifConfigured_eq_next.mp h <;> refine ⟨hc, ?_⟩
  · exact .inl ⟨‹_›, h⟩
  · exact .inr (.inl ⟨_, ‹_›, h⟩)
  · split at h
    · cases h; exact .inr (.inr (.inl ⟨_, ‹_›, ‹_›, rfl⟩))
    · exact .inr (.inr (.inr (.inl ⟨_, ‹_›, Bool.eq_false_iff.mpr ‹_›, h⟩)))
  · cases h; exact .inr (.inr (.inr (.inr ⟨_, ‹_›, rfl⟩)))

/-- With nothing scheduled and a valid configuration a machine step is a controller step. -/
theorem step_eq_controllerStep {s : State} (hc : configOk s.cfg = true) (hs : s.env.schedule = []) :
    step s = controllerStep s := by
  unfold step scheduledStep; rw [hs, ifConfigured_of_ok hc]

/-- What extraction writes (R111): working registers, and on the addressed path the truncation byte. -/
theorem extractFrame_frame {s t : State} (h : extractFrame s = .next t) :
    ∃ m wk, t = { s with line := m, work := wk } ∧ (m = s.line ∨ ∃ e, m = s.line.setBytes e [chNul]
      ∧ e < s.cfg.inLineMax) ∧ wk.op = s.work.op ∧ wk.args = s.work.args ∧ wk.plan = s.work.plan ∧ wk.k = s.work.k := by
  obtain ⟨line, hl, h⟩ := andThen_eq_next.mp h
  unfold applyScan at h
  split at h
  · cases h; exact ⟨_, _, rfl, .inl rfl, rfl, rfl, rfl, rfl⟩
  · cases h; exact ⟨_, _, rfl, .inl rfl, rfl, rfl, rfl, rfl⟩
  · cases h; exact ⟨_, _, rfl, .inl rfl, rfl, rfl, rfl, rfl⟩
  · obtain ⟨m, hm, h⟩ := andThen_eq_next.mp h
    obtain ⟨hb, rfl⟩ := writeBytes_eq_next.mp hm
    cases h
    exact ⟨_, _, rfl, .inr ⟨_, rfl, by simpa using hb⟩, rfl, rfl, rfl, rfl⟩

end Sys2Proof.Machine
end

