-- ==== Sys2Proof/Laws/PerInstr.lean ====
section
/-! SUPPORT. One fact per instruction, as syntax: what an instruction is encoded to is a payload a frame can carry. -/

namespace Sys2Proof.Laws.EncodeClean

open Sys2Proof Sys2Proof.Machine

/-- Every byte of the instruction's payload is one a payload may hold: no `!`, NUL or LF (spec/30_encoding.md R72). -/
def Statement (i : Instr) : Prop := i.wellFormed = true → ∀ b ∈ encode i, isPayloadByte b = true

/-- Tokens of a payload with commas between them hold payload bytes only. -/
theorem payloadByte_of_mem_encodeArgs {args : List Token} (h : tokensOk args = true) {b : Byte}
    (hb : b ∈ encodeArgs args) : isPayloadByte b = true := by
  induction args with
  | nil => cases hb
  | cons t rest ih =>
    obtain ⟨ht, hr⟩ : tokenOk t = true ∧ tokensOk rest = true := Bool.and_eq_true_iff.mp h
    have token : b ∈ t → isPayloadByte b = true := fun hm =>
      (Bool.and_eq_true_iff.mp (List.all_eq_true.mp (Bool.and_eq_true_iff.mp ht).2 b hm)).2
    cases rest with
    | nil => exact token hb
    | cons u more =>
      rcases List.mem_append.mp hb with hm | hm
      · exact token hm
      · rcases List.mem_cons.mp hm with rfl | hm
        · rfl
        · exact ih hr hm

/-- An opcode byte and tokens of a payload make a payload. -/
theorem payloadByte_of_fields {op : Byte} {args : List Token} (ho : isPayloadByte op = true)
    (ha : tokensOk args = true) : ∀ b ∈ op :: encodeArgs args, isPayloadByte b = true := by
  rintro b (_ | ⟨_, hb⟩)
  · exact ho
  · exact payloadByte_of_mem_encodeArgs ha hb

theorem nopEmpty : Statement .nopEmpty := by
  intro _ b hb; cases hb

theorem v (args : List Token) : Statement (.v args) :=
  fun h => payloadByte_of_fields rfl h

theorem l (value : Token) (rest : List Token) : Statement (.l value rest) :=
  fun h => payloadByte_of_fields (args := value :: rest) rfl h

theorem lNoValue : Statement .lNoValue :=
  fun _ => payloadByte_of_fields (args := []) rfl rfl

theorem a (args : List Token) : Statement (.a args) :=
  fun h => payloadByte_of_fields rfl h

theorem w (level : Token) (flag : Option Token) (rest : List Token) : Statement (.w level flag rest) := by
  intro h
  cases flag with
  | none =>
    simp only [Instr.wellFormed, Bool.and_eq_true, List.isEmpty_iff] at h
    obtain ⟨hl, rfl⟩ := h
    exact payloadByte_of_fields (args := [level]) rfl (by simp [tokensOk, hl])
  | some f =>
    simp only [Instr.wellFormed, Bool.and_eq_true] at h
    exact payloadByte_of_fields (args := level :: f :: rest) rfl
      (by simp only [tokensOk, List.all_cons, Bool.and_eq_true]; exact ⟨h.1.1.1, h.1.1.2, h.2⟩)

theorem wOff (level flag : Token) (rest : List Token) : Statement (.wOff level flag rest) := by
  intro h
  simp only [Instr.wellFormed, Bool.and_eq_true] at h
  exact payloadByte_of_fields (args := level :: flag :: rest) rfl
    (by simp only [tokensOk, List.all_cons, Bool.and_eq_true]; exact ⟨h.1.1.1, h.1.1.2, h.2⟩)

theorem wMissing : Statement .wMissing :=
  fun _ => payloadByte_of_fields (args := []) rfl rfl

theorem unknown (op : Byte) (args : List Token) : Statement (.unknown op args) := by
  intro h
  simp only [Instr.wellFormed, unknownOpOk, Bool.and_eq_true] at h
  exact payloadByte_of_fields h.1.2 h.2

end Sys2Proof.Laws.EncodeClean
end

