-- ==== Sys2Proof/Laws/Run.lean ====
section
/-! SUPPORT. Runs of several steps, unrolled one step at a time, and the host's own run of the same machine. -/

namespace Sys2Proof.Machine

@[simp] theorem run_zero (s : State) : run 0 s = .next s := rfl

/-- A run is its first step, then the rest. -/
theorem run_succ (n : Nat) (s : State) : run (n + 1) s = andThen (step s) (run n) := rfl

/-- A run whose first step goes on is the rest of the run. -/
theorem run_next {n : Nat} {s t : State} (h : step s = .next t) : run (n + 1) s = run n t := by
  rw [run_succ, h, andThen_next]

/-- A run cut in two. -/
theorem run_add (m n : Nat) (s : State) : run (m + n) s = andThen (run m s) (run n) := by
  induction m generalizing s with
  | zero => simp
  | succ m ih =>
    rw [show m + 1 + n = (m + n) + 1 by omega, run_succ, run_succ]
    cases step s with
    | next t => simp [ih]
    | fault e => rfl
    | refused r => rfl

/-- The host's run of a machine whose first step goes on. -/
theorem core_run_of_next (M : Host.Core) {n : Nat} {s t : M.State} (h : M.step s = .next t) :
    M.run (n + 1) s = M.run n t := by simp [Host.Core.run, h]

/-- The host's run of a machine whose first step faults. -/
theorem core_run_of_fault (M : Host.Core) {n : Nat} {s : M.State} {e : M.Fault} (h : M.step s = .fault e) :
    M.run (n + 1) s = .fault e := by simp [Host.Core.run, h]

/-- The host's run of a machine whose first step is refused. -/
theorem core_run_of_refused (M : Host.Core) {n : Nat} {s : M.State} {r : M.Refusal} (h : M.step s = .refused r) :
    M.run (n + 1) s = .refused r := by simp [Host.Core.run, h]

/-- The host's run of this machine is `run`. -/
theorem core_run_eq_run (n : Nat) (s : State) : Sys2Proof.core.run n s = run n s := by
  induction n generalizing s with
  | zero => rfl
  | succ n ih =>
    rw [run_succ]
    cases h : step s with
    | next t => exact (core_run_of_next Sys2Proof.core h).trans (ih t)
    | fault e => exact core_run_of_fault Sys2Proof.core h
    | refused r => exact core_run_of_refused Sys2Proof.core h

end Sys2Proof.Machine
end

