-- ==== Sys2Proof/Tests/Slice0.lean ====
section
/-! SUPPORT. Small tests against the vectors of spec/95_test_vectors.md (each cites its own), and a witness for the
hypotheses of every statement that has some. -/

open Sys2Proof Sys2Proof.Machine

namespace Sys2Proof.Tests

/-! ### The states the tests are about -/

/-- The state of a next outcome. -/
def next? : Result State → Option State
  | .next t => some t
  | .fault _ => none
  | .refused _ => none

theorem next_of_isSome {x : Result State} (h : (next? x).isSome = true) : ∃ t, x = .next t := by
  cases x with
  | next t => exact ⟨t, rfl⟩
  | fault e => cases h
  | refused e => cases h

/-- S0 of spec/95_test_vectors.md, with an empty TRACE. -/
def waiting : State :=
  { State.reset with pc := .wait, periph := { refOn := true, adcOn := true, dacOutOn := false, dacLevel := 0 } }

/-- S0 with OVERRIDE = 1 and IND = 1. -/
def overridden : State := { waiting with session := { override := true, ind := true } }

/-- S0 with a host that delivers one line. -/
def offered (line : Bytes) : State := { waiting with env := { waiting.env with lines := [line] } }

/-- EXTRACT of a line. -/
def holding (line : Bytes) : State :=
  { waiting with pc := .extract, line := Memory.setBytes [] 0 line, lineLen := line.length }

/-- A dispatched command's state: the working registers DISP_BEGIN leaves. -/
def dispatched (pc : Ctrl) (op : Byte) (args : List Token) (plan : List HalReq) : State :=
  { waiting with pc := pc, work := { waiting.work with op := op, args := args, plan := plan } }

/-- DISP_BEGIN of a payload. -/
def beginning (p : Bytes) : State := placePayload p waiting

/-! ### Decoding, from the byte values of spec/30_encoding.md R70, R79 and spec/95_test_vectors.md O1 to O10 -/

theorem test_decode_nopEmpty : decode [] = .nopEmpty := by decide

theorem test_decode_v :
    decode [0x76, 0x20, 0x65, 0x78, 0x74, 0x72, 0x61] = .v [[0x65, 0x78, 0x74, 0x72, 0x61]] := by decide

theorem test_decode_l : decode [0x4C, 0x31] = .l [0x31] [] := by decide

theorem test_decode_lNoValue : decode [0x4C, 0x2C, 0x2C] = .lNoValue := by decide

theorem test_decode_a : decode [0x61, 0x20, 0x39] = .a [[0x39]] := by decide

/-- V18, V24. -/
theorem test_decode_w : decode [0x77, 0x20, 0x31, 0x32, 0x38, 0x2C, 0x31] = .w [0x31, 0x32, 0x38] (some [0x31]) []
    ∧ decode [0x77, 0x32, 0x35, 0x35] = .w [0x32, 0x35, 0x35] none [] := by decide

/-- V25, V26. -/
theorem test_decode_wOff : decode [0x77, 0x20, 0x31, 0x32, 0x38, 0x20, 0x30] = .wOff [0x31, 0x32, 0x38] [0x30] []
    ∧ decode [0x77, 0x20, 0x35, 0x30, 0x20, 0x6F, 0x66, 0x66] = .wOff [0x35, 0x30] [0x6F, 0x66, 0x66] [] := by decide

theorem test_decode_wMissing : decode [0x77, 0x20, 0x2C] = .wMissing := by decide

/-- O7, O8, O9: case-sensitive, and the first byte even when it is a space. -/
theorem test_decode_unknown : decode [0x56] = .unknown 0x56 [] ∧ decode [0x6C, 0x31] = .unknown 0x6C [[0x31]]
    ∧ decode [0x20, 0x76] = .unknown 0x20 [[0x76]] := by decide

/-- R87: the encoder's spelling puts one comma between tokens. -/
theorem test_encode_w : encode (.w [0x31] (some [0x31]) [[0x39]]) = [0x77, 0x31, 0x2C, 0x31, 0x2C, 0x39] := by decide

theorem test_tableWord : decodeTableWord 8 0x76 = some (.v []) ∧ decodeTableWord 16 0x314C = some (.l [0x31] [])
    ∧ decodeTableWord 0 0 = some .nopEmpty := by decide

/-- X1 to X6, X8, X10 to X12. -/
theorem test_scan : scanFrame 0x41 [] = .noStart ∧ scanFrame 0x41 [0x76, 0x21] = .noStart
    ∧ scanFrame 0x41 [0x2F] = .noEnd 0 ∧ scanFrame 0x41 [0x2F, 0x41, 0x76] = .noEnd 0
    ∧ scanFrame 0x41 [0x21, 0x2F, 0x41, 0x76] = .noEnd 1 ∧ scanFrame 0x41 [0x2F, 0x21] = .notForMe 0 1
    ∧ scanFrame 0x41 [0x2F, 0x61, 0x76, 0x21] = .notForMe 0 3 ∧ scanFrame 0x41 [0x2F, 0x41, 0x21] = .addressed 0 2
    ∧ scanFrame 0x41 [0x2F, 0x41, 0x76, 0x21] = .addressed 0 3
    ∧ scanFrame 0x41 [0x78, 0x78, 0x2F, 0x41, 0x76, 0x21, 0x79, 0x79] = .addressed 2 5 := by decide

/-- X14 to X19, X21: the first markers count, a NUL ends the window. -/
theorem test_decodeLine : decodeLine 0x41 [0x2F, 0x42, 0x76, 0x21, 0x2F, 0x41, 0x76, 0x21] = .error .notForMe
    ∧ decodeLine 0x41 [0x2F, 0x41, 0x76, 0x21, 0x2F, 0x41, 0x77, 0x20, 0x35, 0x21] = .ok (.v [])
    ∧ decodeLine 0x41 [0x2F, 0x41, 0x00, 0x76, 0x21] = .error .noEnd
    ∧ decodeLine 0x41 [0x00, 0x2F, 0x41, 0x76, 0x21] = .error .noStart
    ∧ decodeLine 0x41 [0x2F, 0x41, 0x21, 0x76, 0x21] = .ok .nopEmpty
    ∧ decodeLine 0x41 [0x2F, 0x41, 0x76, 0x20, 0x0D, 0x21] = .ok (.v [[0x0D]]) := by
  refine ⟨?_, ?_, ?_, ?_, ?_, ?_⟩ <;> rfl

/-- A1 to A9. -/
theorem test_tokens : tokens [] = [] ∧ tokens [0x20] = [] ∧ tokens [0x2C, 0x2C, 0x20, 0x2C] = []
    ∧ tokens [0x2C, 0x2C, 0x37, 0x37, 0x20, 0x20, 0x31] = [[0x37, 0x37], [0x31]]
    ∧ tokens [0x31, 0x2C, 0x2C, 0x32, 0x2C] = [[0x31], [0x32]]
    ∧ tokens [0x20, 0x61, 0x09, 0x62] = [[0x61, 0x09, 0x62]] := by decide

/-- A10 to A15, and the number of A19. -/
theorem test_num : num [0x6F, 0x66, 0x66] = 0 ∧ num [0x2B, 0x30] = 0 ∧ num [0x33, 0x2E, 0x39] = 3
    ∧ num [0x30, 0x78, 0x31, 0x30] = 0 ∧ num [0x09, 0x2D, 0x31, 0x32] = -12
    ∧ num [0x39, 0x39, 0x39, 0x39, 0x39, 0x39, 0x39, 0x39, 0x39, 0x39, 0x39] = 99999999999 := by decide

/-- A16 to A26. -/
theorem test_narrowing : clamp (-5) = 0 ∧ clamp 255 = 255 ∧ clamp 256 = 255 ∧ clamp 99999999999 = 255
    ∧ lsb (-1) = true ∧ lsb 99999999999 = true ∧ lsb (-2) = false ∧ truth 2 = true ∧ truth 0 = false
    ∧ truth (-1) = true := by decide

/-- A27. -/
theorem test_dec : dec 0 = [0x30] ∧ dec 12 = [0x31, 0x32] ∧ dec 255 = [0x32, 0x35, 0x35]
    ∧ dec 65535 = [0x36, 0x35, 0x35, 0x33, 0x35] := by decide

/-- One ill-formed term for each check of `Instr.wellFormed`. -/
theorem test_illFormed_refused :
    tokenOk [] = false ∧ tokenOk [0x31, 0x20] = false ∧ tokenOk [0x21] = false ∧ tokenOk [0x00] = false
    ∧ (Instr.v [[]]).wellFormed = false ∧ (Instr.l [] []).wellFormed = false
    ∧ (Instr.l [0x31] [[0x2C]]).wellFormed = false ∧ (Instr.a [[0x0A]]).wellFormed = false
    ∧ (Instr.w [] none []).wellFormed = false ∧ (Instr.w [0x31] none [[0x31]]).wellFormed = false
    ∧ (Instr.w [0x31] (some []) []).wellFormed = false ∧ (Instr.w [0x31] (some [0x30]) []).wellFormed = false
    ∧ (Instr.w [0x31] (some [0x31]) [[]]).wellFormed = false ∧ (Instr.wOff [] [0x30] []).wellFormed = false
    ∧ (Instr.wOff [0x31] [] []).wellFormed = false ∧ (Instr.wOff [0x31] [0x31] []).wellFormed = false
    ∧ (Instr.wOff [0x31] [0x30] [[]]).wellFormed = false ∧ (Instr.unknown 0x76 []).wellFormed = false
    ∧ (Instr.unknown 0x4C []).wellFormed = false ∧ (Instr.unknown 0x61 []).wellFormed = false
    ∧ (Instr.unknown 0x77 []).wellFormed = false ∧ (Instr.unknown 0x21 []).wellFormed = false
    ∧ (Instr.unknown 0x7A [[]]).wellFormed = false := by decide

/-! ### One step of each command, from spec/95_test_vectors.md section 2.4 -/

/-- X10: the empty payload issues nothing. -/
theorem test_nopEmpty_step :
    (next? (step (holding [0x2F, 0x41, 0x21]))).map (fun t => (t.pc, t.trace, t.line.byte? 2)) =
      some (.wait, [], some 0x00) := by decide

/-- V1: the indicator goes on. -/
theorem test_v_begins : (next? (step (beginning [0x76]))).map (fun t => (t.pc, t.trace, t.session)) =
    some (.exec 0, [.indSet true], { override := false, ind := true }) := by decide

/-- V1: the reply. -/
theorem test_v_replies : (next? (step (dispatched (.exec 0) 0x76 [] []))).map (fun t => (t.out.map (·.2), t.outLen)) =
    some ([0x2F, 0x30, 0x76, 0x20, 0x56, 0x31, 0x23, 0x0A], 8) := by decide

/-- V7: `L -1` sets the override and plans the indicator on. -/
theorem test_l_begins : (next? (step (beginning [0x4C, 0x20, 0x2D, 0x31]))).map
    (fun t => (t.session.override, t.work.plan)) = some (true, [.indicatorSet true]) := by decide

/-- V10: with the override set, `L0` turns the indicator off and adds that event alone. -/
theorem test_l_applies :
    (next? (step { overridden with pc := .exec 0
                                   work := { overridden.work with op := 0x4C, args := [[0x30]]
                                                                  plan := [.indicatorSet false] } })).map
      (fun t => (t.pc, t.trace, t.session)) =
      some (.exec 1, [.indSet false], { override := true, ind := false }) := by decide

/-- V13: `L` without a value keeps the override and turns nothing on. -/
theorem test_lNoValue_begins :
    (next? (step (placePayload [0x4C] overridden))).map (fun t => (t.trace, t.session, t.work.plan)) =
      some ([], { override := true, ind := true }, []) := by decide

/-- V11: its 21 bytes. -/
theorem test_lNoValue_replies :
    (next? (step (dispatched (.exec 0) 0x4C [] []))).map (fun t => (t.out.map (·.2), t.outLen)) =
    some ([0x2F, 0x30, 0x4C, 0x20, 0x65, 0x72, 0x72, 0x6F, 0x72, 0x3A, 0x20, 0x6E, 0x6F, 0x20, 0x76, 0x61, 0x6C,
      0x75, 0x65, 0x23, 0x0A], 21) := by decide

/-- V16: the second reading, 22 of channel B. -/
theorem test_a_reads :
    (next? (step { dispatched (.exec 1) 0x61 [] (readChannels [0, 1, 2, 3, 4]) with
        env := { waiting.env with readings := [22, 333] } })).map (fun t => (t.rd, t.trace, t.env.readings)) =
      some (#v[0, 22, 0, 0, 0], [.adcRead 1 22], [333]) := by decide

/-- V16: the reply, one space between the readings. -/
theorem test_a_replies :
    (next? (step { dispatched (.exec 5) 0x61 [] (readChannels [0, 1, 2, 3, 4]) with
        rd := #v[1, 22, 333, 4444, 55555] })).map (fun t => t.out.map (·.2)) =
      some [0x2F, 0x30, 0x61, 0x20, 0x31, 0x20, 0x32, 0x32, 0x20, 0x33, 0x33, 0x33, 0x20, 0x34, 0x34, 0x34, 0x34, 0x20,
        0x35, 0x35, 0x35, 0x35, 0x35, 0x23, 0x0A] := by decide

/-- V19: `w 300` plans three transactions at level 255. -/
theorem test_w_begins : (next? (step (beginning [0x77, 0x20, 0x33, 0x30, 0x30]))).map (fun t => t.work.plan) =
    some [.referenceInit, .dacSetLevel 255, .referenceOutputEnable true] := by decide

/-- V17: the echo of 128. -/
theorem test_w_replies :
    (next? (step (dispatched (.exec 3) 0x77 [[0x31, 0x32, 0x38]]
        [.referenceInit, .dacSetLevel 128, .referenceOutputEnable true]))).map (fun t => t.out.map (·.2)) =
      some [0x2F, 0x30, 0x77, 0x20, 0x31, 0x32, 0x38, 0x23, 0x0A] := by decide

/-- V26: the output stage goes off, the level stays. -/
theorem test_wOff_applies :
    (next? (step { dispatched (.exec 0) 0x77 [[0x35, 0x30], [0x6F, 0x66, 0x66]] [.referenceOutputEnable false] with
        periph := { refOn := true, adcOn := true, dacOutOn := true, dacLevel := 255 } })).map
      (fun t => (t.periph, t.trace)) =
      some ({ refOn := true, adcOn := true, dacOutOn := false, dacLevel := 255 }, [.refOutEn false]) := by decide

/-- V25: the reply. -/
theorem test_wOff_replies :
    (next? (step (dispatched (.exec 1) 0x77 [[0x31, 0x32, 0x38], [0x30]] [.referenceOutputEnable false]))).map
      (fun t => t.out.map (·.2)) = some [0x2F, 0x30, 0x77, 0x20, 0x6F, 0x66, 0x66, 0x23, 0x0A] := by decide

/-- V27: 42 bytes, and its first and last diagnostic words. -/
theorem test_wMissing_replies :
    (next? (step (dispatched (.exec 0) 0x77 [] []))).map
      (fun t => (t.outLen, (t.out.map (·.2)).take 11, (t.out.map (·.2)).drop 36)) =
      some (42, [0x2F, 0x30, 0x77, 0x20, 0x65, 0x72, 0x72, 0x6F, 0x72, 0x3A, 0x20],
        [0x66, 0x6C, 0x61, 0x67, 0x23, 0x0A]) := by decide

/-- V29. -/
theorem test_unknown_replies :
    (next? (step (dispatched (.exec 0) 0x7A [] []))).map (fun t => t.out.map (·.2)) =
      some [0x2F, 0x30, 0x7A, 0x20, 0x65, 0x72, 0x72, 0x6F, 0x72, 0x3A, 0x20, 0x55, 0x6E, 0x6B, 0x6E, 0x6F, 0x77, 0x6E,
        0x20, 0x63, 0x6F, 0x6D, 0x6D, 0x61, 0x6E, 0x64, 0x23, 0x0A] := by decide

/-- I2: with the other order the indicator goes off before the reply. -/
theorem test_order_parameter :
    (next? (step { dispatched (.exec 0) 0x76 [] [] with cfg := { Config.standard with replyBeforeIndOff := false } })).map
      (fun t => t.pc) = some .dispEnd := by decide

/-! ### Witnesses: states and operands that meet a statement's hypotheses, each clause at a boundary -/

theorem witness_DecodeInvertsEncode :
    [Instr.nopEmpty, .v [], .v [[0x78]], .l [0x31] [], .l [0x31] [[0x32]], .lNoValue, .a [], .w [0x31] none [],
      .w [0x31] (some [0x31]) [[0x39]], .wOff [0x31] [0x30] [], .wOff [0x31] [0x6F] [[0x39]], .wMissing,
      .unknown 0xFF [], .unknown 0x01 [[0xFF]]].all Instr.wellFormed = true := by decide

theorem witness_FramedLineCarriesInstruction :
    nodeIdOk 0x41 = true ∧ (Instr.v []).wellFormed = true ∧ chSlash ∉ ([0x21] : Bytes) ∧ chNul ∉ ([0x21] : Bytes) := by
  decide

theorem witness_DecodedPayloadIsWellFormed : ∀ b ∈ ([0x77, 0x20, 0xFF] : Bytes), isPayloadByte b = true := by decide

theorem witness_OpcodeMapSelectsByFirstByte :
    tokens [0x20, 0x2C] = [] ∧ tokens [0x31] = [[0x31]] ∧ tokens [0x31, 0x2C, 0x32] = [[0x31], [0x32]]
    ∧ num [0x32] ≠ 0 ∧ tokens [0x31, 0x2C, 0x30] = [[0x31], [0x30]] ∧ num [0x30] = 0
    ∧ (0x56 : Byte) ≠ 0x76 ∧ (0x56 : Byte) ≠ 0x4C ∧ (0x56 : Byte) ≠ 0x61 ∧ (0x56 : Byte) ≠ 0x77 := by decide

theorem witness_TokensAreMaximalRuns :
    ([0x31] : Bytes) ∈ tokens [0x20, 0x31] ∧ ∀ b ∈ ([0x1F, 0x21, 0x2B, 0x2D] : Bytes), b ≠ 0x20 ∧ b ≠ 0x2C := by decide

/-- Blanks at both ends of their range, then a byte just outside the digits, and no byte at all. -/
theorem witness_NumReadsSignAndDigits :
    (∀ b ∈ ([0x20, 0x09, 0x0D] : Bytes), b = 0x20 ∨ (0x09 ≤ b.toNat ∧ b.toNat ≤ 0x0D))
    ∧ (∀ b, ([0x2F] : Bytes).head? = some b → ¬ (0x30 ≤ b.toNat ∧ b.toNat ≤ 0x39))
    ∧ (∀ b, ([0x3A] : Bytes).head? = some b → ¬ (0x30 ≤ b.toNat ∧ b.toNat ≤ 0x39))
    ∧ (∀ b, ([] : Bytes).head? = some b → ¬ (0x30 ≤ b.toNat ∧ b.toNat ≤ 0x39))
    ∧ (∀ z ∈ ([0x30, 0x30] : Bytes), z = 0x30) := by simp

/-- The third clause's byte: just outside the blanks, and no sign. -/
theorem witness_NumReadsSignAndDigits_other :
    ([0x0E] : Bytes).head? = some 0x0E ∧ (0x0E : Byte) ≠ 0x2B ∧ (0x0E : Byte) ≠ 0x2D
    ∧ ¬ ((0x0E : Byte) = 0x20 ∨ (0x09 ≤ (0x0E : Byte).toNat ∧ (0x0E : Byte).toNat ≤ 0x0D)) := by decide

theorem witness_DecIsShortestNumeral : (dec 0).head? = some 0x30 ∧ 9 ≤ 10 := by decide

/-- One window for each of the four results. -/
theorem witness_ScanHonorsFirstMarkers :
    scanFrame 0x41 [0x21] = .noStart ∧ scanFrame 0x41 [0x21, 0x2F] = .noEnd 1
    ∧ scanFrame 0x41 [0x2F, 0x21] = .notForMe 0 1 ∧ scanFrame 0x41 [0x2F, 0x41, 0x21] = .addressed 0 2 := by decide

theorem witness_ExtractAddressedEntersDispatch :
    (holding [0x2F, 0x41, 0x76, 0x21]).pc = .extract ∧ configOk (holding [0x2F, 0x41, 0x76, 0x21]).cfg = true
    ∧ (holding [0x2F, 0x41, 0x76, 0x21]).env.schedule = [] ∧ (holding [0x2F, 0x41, 0x76, 0x21]).lineLen = 4
    ∧ 4 ≤ (holding [0x2F, 0x41, 0x76, 0x21]).cfg.inLineMax
    ∧ Holds (holding [0x2F, 0x41, 0x76, 0x21]).line 0 [0x2F, 0x41, 0x76, 0x21]
    ∧ scanFrame 0x41 (window [0x2F, 0x41, 0x76, 0x21]) = .addressed 0 3 ∧ 0 + 2 < 3 := by
  refine ⟨by decide, by decide, by decide, by decide, by decide, ?_, by decide, by decide⟩
  unfold Holds; decide

theorem witness_EmptyPayloadReturnsToWait :
    (holding [0x2F, 0x41, 0x21]).pc = .extract ∧ (holding [0x2F, 0x41, 0x21]).lineLen = 3
    ∧ Holds (holding [0x2F, 0x41, 0x21]).line 0 [0x2F, 0x41, 0x21]
    ∧ scanFrame 0x41 (window [0x2F, 0x41, 0x21]) = .addressed 0 2 ∧ 2 = 0 + 2
    ∧ configOk (holding [0x2F, 0x41, 0x21]).cfg = true ∧ (holding [0x2F, 0x41, 0x21]).env.schedule = [] := by
  refine ⟨by decide, by decide, ?_, by decide, by decide, by decide, by decide⟩
  unfold Holds; decide

/-- The three clauses, at the shortest line of each. -/
theorem witness_ExtractDropsForeignLine :
    Holds (holding []).line 0 [] ∧ scanFrame 0x41 (window []) = .noStart
    ∧ Holds (holding [0x2F]).line 0 [0x2F] ∧ scanFrame 0x41 (window [0x2F]) = .noEnd 0
    ∧ Holds (holding [0x2F, 0x21]).line 0 [0x2F, 0x21] ∧ scanFrame 0x41 (window [0x2F, 0x21]) = .notForMe 0 1
    ∧ configOk waiting.cfg = true ∧ (holding []).pc = .extract ∧ (holding []).env.schedule = [] := by
  unfold Holds; decide

theorem witness_UnmarkedOrForeignLineHasNoPayload :
    chSlash ∉ ([0x41, 0x21] : Bytes) ∧ chBang ∉ ([0x2F, 0x41] : Bytes)
    ∧ ([0x21, 0x2F, 0x42, 0x21] : Bytes) = [0x21] ++ chSlash :: 0x42 :: [0x21] ∧ chSlash ∉ ([0x21] : Bytes)
    ∧ (0x42 : Byte) ≠ 0x41 := by decide

theorem configOk_standard : configOk Config.standard = true := by decide

/-- A line the host may deliver, `ReadyFor` it. -/
theorem readyFor_offered (line : Bytes) (h : deliverable Config.standard line = true) :
    ReadyFor (offered line) line [] :=
  ⟨rfl, configOk_standard, rfl, h, rfl⟩

/-- The codes 1 and 4 at the ends of the range: the empty line, and the frame with the empty payload. -/
theorem witness_LineWithoutCommandIsSilent :
    ReadyFor (offered []) [] [] ∧ (lineOutcome 0x41 []).code = 1
    ∧ ReadyFor (offered [0x2F, 0x41, 0x21]) [0x2F, 0x41, 0x21] [] ∧ (lineOutcome 0x41 [0x2F, 0x41, 0x21]).code = 4 :=
  ⟨readyFor_offered [] (by decide), rfl, readyFor_offered _ (by decide), rfl⟩

/-- X4, X9, V1, V11, V29: the other outcome codes. -/
theorem test_lineOutcome :
    (lineOutcome 0x41 [0x2F, 0x41, 0x76]).code = 2 ∧ (lineOutcome 0x41 [0x2F, 0x42, 0x76, 0x21]).code = 3
    ∧ (lineOutcome 0x41 [0x2F, 0x41, 0x76, 0x21]).code = 0 ∧ (lineOutcome 0x41 [0x2F, 0x41, 0x4C, 0x21]).code = 5
    ∧ (lineOutcome 0x41 [0x2F, 0x41, 0x7A, 0x21]).code = 6 := ⟨rfl, rfl, rfl, rfl, rfl⟩

/-- The four control states of a dispatch; the payload read is `v`. -/
theorem witness_StepRunsDecodedCommand :
    configOk (beginning [0x76]).cfg = true ∧ (beginning [0x76]).env.schedule = [] ∧ (beginning [0x76]).pc = .dispBegin
    ∧ payload (beginning [0x76]) = .next [0x76] ∧ (dispatched (.exec 0) 0x76 [] []).pc = .exec 0
    ∧ (dispatched .reply 0x76 [] []).pc = .reply ∧ (dispatched .dispEnd 0x76 [] []).pc = .dispEnd :=
  ⟨by decide, by decide, by decide, rfl, by decide, by decide, by decide⟩

/-- The model's hook for the host: a payload placed after reset is the one the next step runs. -/
theorem test_withFetchWord :
    payload (State.reset.withFetchWord 16 0x314C) = .next [0x4C, 0x31]
    ∧ (next? (step (State.reset.withFetchWord 16 0x314C))).map (fun t => t.session) =
      some { override := true, ind := true } := ⟨rfl, by decide⟩

theorem witness_ResetThenBootReachesWait :
    configOk State.reset.cfg = true ∧ State.reset.env.schedule = [] := by decide

theorem witness_BootStepsInOrder :
    State.reset.pc = .boot0 ∧ ({ State.reset with pc := .boot1 } : State).pc = .boot1
    ∧ ({ State.reset with pc := .boot2 } : State).pc = .boot2 ∧ configOk State.reset.cfg = true
    ∧ State.reset.env.schedule = [] := by decide

/-- The clauses at the line length where they meet: three bytes fit an IN_LINE_MAX of 3, four do not; and LF. -/
theorem witness_WaitTakesOneLine :
    deliverable { Config.standard with inLineMax := 3 } [0x2F, 0x41, 0x21] = true
    ∧ configOk { Config.standard with inLineMax := 3 } = true
    ∧ ([0x2F, 0x41, 0x76, 0x21] : Bytes).length > ({ Config.standard with inLineMax := 3 } : Config).inLineMax
    ∧ (0x0A : Byte) ∈ ([0x0A] : Bytes) ∧ waiting.env.lines = [] ∧ waiting.pc = .wait ∧ waiting.env.schedule = [] := by
  decide

/-- The state with one coming move of the environment. -/
def withMove (m : EnvMove) (s : State) : State := { s with env := { s.env with schedule := [m] } }

theorem witness_ResetFromAnyState :
    configOk (withMove .reset (dispatched (.exec 1) 0x61 [] (readChannels [0, 1]))).cfg = true
    ∧ (withMove .reset (dispatched (.exec 1) 0x61 [] (readChannels [0, 1]))).env.schedule = [.reset] := by decide

/-- Both clauses: every control state that waits, at the last transaction of a plan and just past it, and with the
override set. -/
theorem witness_HungTransactionWaitsForever :
    configOk (withMove .hang waiting).cfg = true ∧ (withMove .hang waiting).env.schedule = [.hang]
    ∧ AwaitsTransaction (withMove .hang waiting) ∧ AwaitsTransaction (withMove .hang State.reset)
    ∧ AwaitsTransaction (withMove .hang (dispatched .reply 0x76 [] []))
    ∧ AwaitsTransaction (withMove .hang (dispatched .dispEnd 0x76 [] []))
    ∧ AwaitsTransaction (withMove .hang (dispatched (.exec 1) 0x61 [] (readChannels [0, 1])))
    ∧ ¬ AwaitsTransaction (withMove .hang (dispatched (.exec 2) 0x61 [] (readChannels [0, 1])))
    ∧ ¬ AwaitsTransaction (withMove .hang { overridden with pc := .dispEnd })
    ∧ ¬ AwaitsTransaction (withMove .hang (holding [])) := by
  simp only [← issuesTransaction_iff]; decide

/-- The condition of each stop, at the boundary of its range. -/
theorem witness_StopsHaveTheirNames :
    configOk { Config.standard with inLineMax := 2 } = false ∧ waiting.env.schedule = []
    ∧ waiting.cfg.inLineMax ≤ 256 ∧ waiting.cfg.outLineMax ≤ 256 ∧ waiting.line.byte? 255 = none
    ∧ waiting.cfg.inLineMax < 254 + ([0, 0, 0] : Bytes).length ∧ waiting.cfg.outLineMax < 257 + ([] : Bytes).length
    ∧ ({ waiting with periph := { waiting.periph with adcOn := false } } : State).periph.adcOn = false
    ∧ State.reset.periph.refOn = false ∧ waiting.periph.refOn = true ∧ waiting.periph.adcOn = true
    ∧ readsBefore (readChannels [0, 1, 2, 3, 4, 0]) 5 = 5
    ∧ (readChannels [0, 1, 2, 3, 4, 0])[5]? = some (.adcRead 0)
    ∧ (offered [0x0A]).env.lines = [[0x0A]] ∧ (0x0A : Byte) ∈ ([0x0A] : Bytes)
    ∧ Instr.wMissing ≠ .nopEmpty ∧ waiting.pc = .wait := by decide

/-- A LINE of three bytes, whole, under an IN_LINE_MAX of 3. -/
def brimming : State :=
  { holding [0x2F, 0x41, 0x21] with cfg := { Config.standard with inLineMax := 3 }, lineLen := 4 }

/-- Reads that stop: at the size and at a byte that holds no value, in EXTRACT, DISP_BEGIN and REPLY. -/
theorem witness_StopsHaveTheirNames_reads :
    configOk brimming.cfg = true ∧ brimming.pc = .extract
    ∧ ReadStopsAt brimming.cfg.inLineMax brimming.line 0 brimming.lineLen 3
    ∧ ReadStopsAt waiting.cfg.inLineMax (holding [0x2F]).line 0 2 1
    ∧ ReadStopsAt brimming.cfg.inLineMax brimming.line 2 2 1
    ∧ ReadStopsAt waiting.cfg.inLineMax (holding [0x2F]).line 0 3 1
    ∧ ReadStopsAt waiting.cfg.outLineMax [(0, 0x2F)] 0 2 1
    ∧ ReadStopsAt 1 [(0, 0x2F)] 0 2 1 := by
  unfold ReadStopsAt; decide

/-- A reply that does not fit a valid OUT: five readings of eight digits, past ADC_MAX, and an OUT of 42 bytes. -/
theorem witness_StopsHaveTheirNames_reply :
    configOk { Config.standard with outLineMax := 42 } = true
    ∧ 42 < 6 + (dataOf Config.standard #v[12345678, 12345678, 12345678, 12345678, 12345678] (classify 0x61 [])).length
    ∧ ([] : List HalReq)[0]? = none := by decide

/-- Both clauses of every statement of the form `…PlansAndReplies`, for a plan of each length the commands have. -/
theorem witness_PlansAndReplies :
    (beginning [0x76]).pc = .dispBegin ∧ configOk waiting.cfg = true
    ∧ (dispatched (.exec 0) 0x76 [] []).pc = .exec (dispatched (.exec 0) 0x76 [] []).work.plan.length
    ∧ (dispatched (.exec 1) 0x4C [[0x31]] [.indicatorSet true]).pc =
        .exec (dispatched (.exec 1) 0x4C [[0x31]] [.indicatorSet true]).work.plan.length
    ∧ (dispatched (.exec 3) 0x77 [[0x31]] (setReference 1 true)).pc =
        .exec (dispatched (.exec 3) 0x77 [[0x31]] (setReference 1 true)).work.plan.length
    ∧ (dispatched (.exec 5) 0x61 [] (readChannels [0, 1, 2, 3, 4])).pc =
        .exec (dispatched (.exec 5) 0x61 [] (readChannels [0, 1, 2, 3, 4])).work.plan.length := by decide

/-- `a` may be replied with readings at both ends of their range. -/
theorem witness_AnalogPlansAndReplies : ReadingInv { waiting with rd := #v[0, 65535, 0, 65535, 65535] } := by
  unfold ReadingInv; decide

/-- One of each HAL transaction. -/
def oneOfEach : List HalReq :=
  [.referenceInit, .referenceClose, .adcInit, .adcClose, .dacSetLevel 255, .referenceOutputEnable false,
    .indicatorSet true]

/-- Each HAL transaction as the k-th entry of a plan; the fifth `adcRead` goes to RD[4]. -/
theorem witness_HalTransactionEffects :
    oneOfEach[0]? = some .referenceInit ∧ oneOfEach[1]? = some .referenceClose ∧ oneOfEach[2]? = some .adcInit
    ∧ oneOfEach[3]? = some .adcClose ∧ oneOfEach[4]? = some (.dacSetLevel 255)
    ∧ oneOfEach[5]? = some (.referenceOutputEnable false) ∧ oneOfEach[6]? = some (.indicatorSet true)
    ∧ (dispatched (.exec 4) 0x61 [] (readChannels [0, 1, 2, 3, 4])).pc = .exec 4
    ∧ (readChannels [0, 1, 2, 3, 4])[4]? = some (.adcRead 4) ∧ waiting.periph.refOn = true ∧ waiting.periph.adcOn = true
    ∧ 4 = readsBefore (readChannels [0, 1, 2, 3, 4]) 4
    ∧ 4 < 5 ∧ (Instr.a []) ≠ .nopEmpty := by decide

/-- A reply stands in OUT. -/
def replying : State :=
  { dispatched .reply 0x76 [] [] with out := Memory.setBytes [] 0 (replyBytes 0x76 [0x56, 0x31]), outLen := 8 }

theorem witness_ReplyIsTransmittedWhole :
    (Instr.v []) ≠ .nopEmpty ∧ replying.pc = .reply ∧ replying.outLen = (replyBytes 0x76 [0x56, 0x31]).length
    ∧ (replyBytes 0x76 [0x56, 0x31]).length ≤ ({ replying.cfg with outLineMax := 8 } : Config).outLineMax
    ∧ (replyBytes 0x76 [0x56, 0x31]).length ≤ replying.cfg.outLineMax
    ∧ Holds replying.out 0 (replyBytes 0x76 [0x56, 0x31]) := by
  unfold Holds; decide

theorem witness_DispatchEndsWithIndicatorOff :
    (dispatched .dispEnd 0x76 [] []).pc = .dispEnd ∧ waiting.session.override = false
    ∧ overridden.session.override = true := by decide

theorem witness_VersionCycle :
    ReadyFor (offered [0x2F, 0x41, 0x76, 0x21]) [0x2F, 0x41, 0x76, 0x21] []
    ∧ decodeLine 0x41 [0x2F, 0x41, 0x76, 0x21] = .ok (.v []) := ⟨readyFor_offered _ (by decide), rfl⟩

theorem witness_OverrideCycle :
    ReadyFor (offered [0x2F, 0x41, 0x4C, 0x31, 0x21]) [0x2F, 0x41, 0x4C, 0x31, 0x21] []
    ∧ decodeLine 0x41 [0x2F, 0x41, 0x4C, 0x31, 0x21] = .ok (.l [0x31] []) := ⟨readyFor_offered _ (by decide), rfl⟩

theorem witness_OverrideNoValueCycle :
    ReadyFor (offered [0x2F, 0x41, 0x4C, 0x2C, 0x21]) [0x2F, 0x41, 0x4C, 0x2C, 0x21] []
    ∧ decodeLine 0x41 [0x2F, 0x41, 0x4C, 0x2C, 0x21] = .ok .lNoValue := ⟨readyFor_offered _ (by decide), rfl⟩

theorem witness_AnalogCycle :
    ReadyFor (offered [0x2F, 0x41, 0x61, 0x21]) [0x2F, 0x41, 0x61, 0x21] []
    ∧ decodeLine 0x41 [0x2F, 0x41, 0x61, 0x21] = .ok (.a [])
    ∧ (offered [0x2F, 0x41, 0x61, 0x21]).periph.refOn = true
    ∧ (offered [0x2F, 0x41, 0x61, 0x21]).periph.adcOn = true := ⟨readyFor_offered _ (by decide), rfl, rfl, rfl⟩

/-- With the flag, and without it. -/
theorem witness_ReferenceOnCycle :
    ReadyFor (offered [0x2F, 0x41, 0x77, 0x39, 0x2C, 0x31, 0x21]) [0x2F, 0x41, 0x77, 0x39, 0x2C, 0x31, 0x21] []
    ∧ decodeLine 0x41 [0x2F, 0x41, 0x77, 0x39, 0x2C, 0x31, 0x21] = .ok (.w [0x39] (some [0x31]) [])
    ∧ ReadyFor (offered [0x2F, 0x41, 0x77, 0x39, 0x21]) [0x2F, 0x41, 0x77, 0x39, 0x21] []
    ∧ decodeLine 0x41 [0x2F, 0x41, 0x77, 0x39, 0x21] = .ok (.w [0x39] none []) :=
  ⟨readyFor_offered _ (by decide), rfl, readyFor_offered _ (by decide), rfl⟩

theorem witness_ReferenceOffCycle :
    ReadyFor (offered [0x2F, 0x41, 0x77, 0x39, 0x2C, 0x30, 0x21]) [0x2F, 0x41, 0x77, 0x39, 0x2C, 0x30, 0x21] []
    ∧ decodeLine 0x41 [0x2F, 0x41, 0x77, 0x39, 0x2C, 0x30, 0x21] = .ok (.wOff [0x39] [0x30] []) :=
  ⟨readyFor_offered _ (by decide), rfl⟩

theorem witness_ReferenceMissingCycle :
    ReadyFor (offered [0x2F, 0x41, 0x77, 0x21]) [0x2F, 0x41, 0x77, 0x21] []
    ∧ decodeLine 0x41 [0x2F, 0x41, 0x77, 0x21] = .ok .wMissing := ⟨readyFor_offered _ (by decide), rfl⟩

theorem witness_UnknownCycle :
    ReadyFor (offered [0x2F, 0x41, 0x2F, 0x76, 0x21]) [0x2F, 0x41, 0x2F, 0x76, 0x21] []
    ∧ decodeLine 0x41 [0x2F, 0x41, 0x2F, 0x76, 0x21] = .ok (.unknown 0x2F [[0x76]]) :=
  ⟨readyFor_offered _ (by decide), rfl⟩

/-- A step that is no reset, for the statements about every step. -/
theorem witness_OneTransactionPerStep :
    (∃ t, step waiting = .next t) ∧ (∃ t, step (beginning [0x4C, 0x31]) = .next t)
    ∧ waiting.env.schedule.head? ≠ some .reset ∧ (beginning [0x4C, 0x31]).env.schedule.head? ≠ some .reset :=
  ⟨next_of_isSome (by decide), next_of_isSome (by decide), by decide, by decide⟩

theorem witness_ParametersNeverChange : ∃ t, step (withMove .reset overridden) = .next t :=
  next_of_isSome (by decide)

/-- `L` sets the override from 0, and a set override is met. -/
theorem witness_OverrideIsSticky :
    (beginning [0x4C, 0x31]).session.override = false
    ∧ (next? (step (beginning [0x4C, 0x31]))).map (fun t => t.session.override) = some true
    ∧ overridden.session.override = true ∧ (next? (step overridden)).isSome = true
    ∧ overridden.env.schedule.head? ≠ some .reset := by decide

theorem witness_BuffersStayCanonical :
    Memory.wf (holding [0x2F, 0x41, 0x21]).line ∧ Memory.wf (holding [0x2F, 0x41, 0x21]).out
    ∧ (next? (step (holding [0x2F, 0x41, 0x21]))).isSome = true := by decide

theorem witness_PayloadStaysDuringDispatch :
    (beginning [0x76]).pc ≠ .wait ∧ (beginning [0x76]).pc ≠ .extract
    ∧ (beginning [0x76]).env.schedule.head? ≠ some .reset ∧ (next? (step (beginning [0x76]))).isSome = true := by decide

/-- A step that takes a line, and one that transmits. -/
theorem witness_LinesOnlyInWaitRepliesOnlyInReply :
    (next? (step (offered [0x76]))).map (fun t => (t.trace, t.env.lines)) = some ([.readLine [0x76]], [])
    ∧ (next? (step replying)).map (fun t => t.trace) = some [.writeLine (replyBytes 0x76 [0x56, 0x31])] := by decide

/-- The first read of `a`, with its reading fixed. -/
def reading : State :=
  { dispatched (.exec 0) 0x61 [] (planOf Config.standard (.a [])) with env := { waiting.env with readings := [7] } }

/-- The second transaction of `w 255`. -/
def setting : State := dispatched (.exec 1) 0x77 [[0x32, 0x35, 0x35]] (planOf Config.standard (.w [0x32, 0x35, 0x35] none []))

theorem readingInv_waiting : ReadingInv waiting := by unfold ReadingInv; decide

/-- The buffers, powers and readings of the test states meet the invariant. -/
theorem inv_of_dispatched {s : State} (hs : s = { waiting with pc := s.pc, work := s.work, env := s.env })
    (h : ControlInv s) : MachineInv s := by
  refine ⟨?_, ?_, ?_, ?_, h⟩ <;> rw [hs]
  · exact configOk_standard
  · exact ⟨wf_nil, wf_nil, nofun, nofun, Nat.zero_le _, Nat.zero_le _⟩
  · exact ⟨fun _ => rfl, fun _ _ => rfl⟩
  · exact readingInv_waiting

theorem inv_waiting : MachineInv waiting := inv_of_dispatched rfl trivial

theorem inv_reading : MachineInv reading :=
  inv_of_dispatched rfl ⟨Nat.zero_le _, rfl, rfl, fun h => by cases h⟩

theorem inv_setting : MachineInv { setting with work := { setting.work with k := 1 } } :=
  inv_of_dispatched rfl ⟨by decide, rfl, rfl, fun h => by cases h⟩

theorem inv_replying : MachineInv replying := by
  refine ⟨by decide, ?_, ⟨fun _ => rfl, fun _ _ => rfl⟩, ?_, ?_⟩
  · unfold BufferInv; decide
  · unfold ReadingInv; decide
  · exact ⟨⟨by unfold Holds; decide, by decide⟩, fun h => by cases h⟩

theorem witness_InvariantKeptByStep : MachineInv waiting ∧ ∃ t, step waiting = .next t :=
  ⟨inv_waiting, next_of_isSome (by decide)⟩

theorem witness_ReferenceAndAdcNeverClosed :
    MachineInv reading ∧ (next? (step reading)).map (fun t => t.trace) = some (reading.trace ++ [.adcRead 0 7]) :=
  ⟨inv_reading, by decide⟩

theorem witness_ReferenceAndAdcStayOn :
    MachineInv reading ∧ (∃ t, step reading = .next t) ∧ reading.env.schedule.head? ≠ some .reset
    ∧ reading.periph.refOn = true ∧ reading.periph.adcOn = true :=
  ⟨inv_reading, next_of_isSome (by decide), by decide, rfl, rfl⟩

/-- The level written anew. -/
theorem witness_DacWrittenOnlyByW :
    MachineInv { setting with work := { setting.work with k := 1 } }
    ∧ (next? (step { setting with work := { setting.work with k := 1 } })).map (fun t => (t.periph.dacLevel, t.trace)) =
      some (255, setting.trace ++ [.dacSetLevel 255])
    ∧ setting.periph.dacLevel ≠ 255 ∧ setting.env.schedule.head? ≠ some .reset :=
  ⟨inv_setting, by decide, by decide, by decide⟩

/-- The last transaction of `w 9,0`, which writes the DAC_OUT_ON already held: the event alone shows it. -/
def offAgain : State := dispatched (.exec 0) 0x77 [[0x39], [0x30]] (planOf Config.standard (.wOff [0x39] [0x30] []))

theorem witness_DacWrittenOnlyByW_same :
    MachineInv offAgain
    ∧ (next? (step offAgain)).map (fun t => (t.periph, t.trace)) =
      some (offAgain.periph, offAgain.trace ++ [.refOutEn false])
    ∧ offAgain.env.schedule.head? ≠ some .reset :=
  ⟨inv_of_dispatched rfl ⟨Nat.zero_le _, rfl, rfl, fun h => by cases h⟩, by decide, by decide⟩

theorem witness_NoStepStops : MachineInv reading ∧ HostInv reading
    ∧ MachineInv (offered [0x2F]) ∧ HostInv (offered [0x2F]) :=
  ⟨inv_reading, by unfold HostInv; decide, inv_of_dispatched rfl trivial, by unfold HostInv; decide⟩

theorem witness_EveryCycleReturnsToWait : MachineInv reading ∧ reading.env.schedule = [] := ⟨inv_reading, rfl⟩

theorem witness_EveryReplyHasTheFormat :
    MachineInv replying
    ∧ (next? (step replying)).map (fun t => t.trace) = some (replying.trace ++ [.writeLine (replyBytes 0x76 [0x56, 0x31])]) :=
  ⟨inv_replying, by decide⟩

/-- Two waiting states that differ in every field the statement frees. -/
theorem witness_EarlierCyclesLeaveNoTrace :
    waiting.pc = .wait
    ∧ SameLive waiting { waiting with line := [(0, 0x2F)], lineLen := 1, out := [(3, 0x20)], outLen := 9
                                      rd := #v[1, 2, 3, 4, 5], work := { waiting.work with op := 0x77, k := 2 } } :=
  ⟨rfl, rfl, rfl, rfl, rfl, rfl, rfl⟩

theorem witness_ShadowFieldsAreNotRead :
    SameButShadow replying { replying with session := { override := false, ind := true }
                                           periph := { replying.periph with dacOutOn := true, dacLevel := 255 } } := rfl

end Sys2Proof.Tests
end

/-! The stops of the model and the build-time parameters (spec/00_scope.md R5): an equation per case of the functions
that can stop, what a step leaves of `cfg`, and the two statements O24 and O44. -/

namespace Sys2Proof.Machine

/-! ### Accesses to a buffer -/

/-- R54 and log 3: a byte past the size is refused, a byte that holds no value faults. -/
theorem readByte_eq (sp : Space) (m : Memory) (a : Nat) :
    readByte sp m a =
      if sp.size ≤ a then .refused sp.outOfRange
      else match m.byte? a with
        | some v => .next v
        | none => .fault sp.holdsNoValue := by
  by_cases h : a < sp.size
  · exact (if_pos h).trans (if_neg (Nat.not_le.mpr h)).symm
  · exact (if_neg h).trans (if_pos (Nat.not_lt.mp h)).symm

/-- R54: a write past the size is refused as a whole. -/
theorem writeBytes_of_size_lt {sp : Space} {lo : Nat} {vs : Bytes} (h : sp.size < lo + vs.length) (m : Memory) :
    writeBytes sp m lo vs = .refused sp.outOfRange := if_neg (Nat.not_le.mpr h)

/-- A stop of either kind stays, whatever would have come next. -/
theorem andThen_ite_stop {α β : Type} (p : Prop) [Decidable p] (r : Refusal) (e : Fault) (f : α → Result β) :
    andThen (if p then .refused r else .fault e) f = if p then .refused r else .fault e := by
  split <;> rfl

/-- What follows a read does not run when the read stops. -/
theorem andThen_readBytes_of_stopsAt {β : Type} {sp : Space} {m : Memory} {lo n j : Nat}
    (h : ReadStopsAt sp.size m lo n j) (f : Bytes → Result β) :
    andThen (readBytes sp m lo n) f =
      if sp.size ≤ lo + j then .refused sp.outOfRange else .fault sp.holdsNoValue := by
  rw [readBytes_of_stopsAt h, andThen_ite_stop]

/-! ### Transactions and lines -/

/-- R179, U15: no reading without the reference and the ADC. -/
theorem completeHal_adcRead_of_off {s : State} (h : s.periph.refOn = false ∨ s.periph.adcOn = false)
    (ch : ChannelId) (i : Nat) : completeHal (.adcRead ch) i s = .refused .adcReadUnpowered := by
  rcases h with h | h <;> simp [completeHal, h]

/-- R33: RD has five registers. -/
theorem completeHal_adcRead_of_five_le {s : State} (hr : s.periph.refOn = true) (ha : s.periph.adcOn = true)
    {i : Nat} (hi : 5 ≤ i) (ch : ChannelId) : completeHal (.adcRead ch) i s = .refused .noReadingRegister := by
  simp [completeHal, hr, ha, Nat.not_lt.mpr hi]

/-- R224: the lines the host has no move for. -/
theorem deliverable_eq_false_iff (c : Config) (b : Bytes) :
    deliverable c b = false ↔ b.length > c.inLineMax ∨ chLF ∈ b := by
  simp [deliverable, or_iff_not_imp_left]

/-- R207, U9: a line the host may not deliver is refused in WAIT. -/
theorem waitStep_of_not_deliverable {s : State} {b : Bytes} {later : List Bytes} (hl : s.env.lines = b :: later)
    (hb : deliverable s.cfg b = false) : waitStep s = .refused .lineNotDeliverable := by
  simp [waitStep, hl, hb]

/-- R82: six bytes around the data. -/
@[simp] theorem replyBytes_length (op : Byte) (data : Bytes) : (replyBytes op data).length = 6 + data.length := by
  simp only [replyBytes, List.length_append, List.length_cons, List.length_nil]; omega

/-- R54, R84: a reply longer than OUT is refused. -/
theorem assembleReply_of_outLineMax_lt {h : Handler} {s : State} (hl : s.cfg.outLineMax < 6 + h.data.length) :
    assembleReply h s = .refused .outIndexOutOfRange := by
  have hw : (outSpace s.cfg).size < 0 + (replyBytes h.op h.data).length := by simpa using hl
  rw [assembleReply, writeBytes_of_size_lt hw, andThen_refused]
  rfl

/-! ### The dispatch and the controller, one equation per control state (R121, R225) -/

section Equations

variable {s : State} {k : Nat}

theorem runHandler_of_entry {q : HalReq} (h : Handler) (hpc : s.pc = .exec k) (hq : s.work.plan[k]? = some q) :
    runHandler h s = issueEntry k q s := by
  simp only [runHandler, hpc, hq]

theorem runHandler_of_planDone (h : Handler) (hpc : s.pc = .exec k) (hq : s.work.plan[k]? = none) :
    runHandler h s = assembleReply h s := by
  simp only [runHandler, hpc, hq]

theorem runHandler_of_reply (h : Handler) (hpc : s.pc = .reply) : runHandler h s = emitReply s := by
  simp only [runHandler, hpc]

/-- Log 9: the control states outside the dispatch run no command. -/
theorem runHandler_of_notInDispatch (h : Handler)
    (hpc : s.pc = .boot0 ∨ s.pc = .boot1 ∨ s.pc = .boot2 ∨ s.pc = .wait ∨ s.pc = .extract) :
    runHandler h s = .refused .notInDispatch := by
  rcases hpc with hpc | hpc | hpc | hpc | hpc <;> simp only [runHandler, hpc]

/-- R132: past DISP_BEGIN the command that OP and ARGS select goes on. -/
theorem exec_currentInstr (s : State) :
    exec (currentInstr s) s = runHandler (handlerOf (currentInstr s) s) s :=
  exec_eq_runHandler (classify_ne_nopEmpty _ _) s

theorem controllerStep_of_wait (hpc : s.pc = .wait) : controllerStep s = waitStep s := by
  simp only [controllerStep, hpc]

theorem controllerStep_of_extract (hpc : s.pc = .extract) :
    controllerStep s = andThen (extractFrame s) afterExtract := by
  simp only [controllerStep, hpc]

theorem controllerStep_of_dispBegin (hpc : s.pc = .dispBegin) :
    controllerStep s = andThen (payload s) fun p => exec (decode p) s := by
  simp only [controllerStep, hpc]

theorem controllerStep_of_entry {q : HalReq} (hpc : s.pc = .exec k) (hq : s.work.plan[k]? = some q) :
    controllerStep s = issueEntry k q s := by
  simp only [controllerStep, hpc, exec_currentInstr, runHandler_of_entry _ hpc hq]

theorem controllerStep_of_planDone (hpc : s.pc = .exec k) (hq : s.work.plan[k]? = none) :
    controllerStep s = assembleReply (handlerOf (currentInstr s) s) s := by
  simp only [controllerStep, hpc, exec_currentInstr, runHandler_of_planDone _ hpc hq]

theorem controllerStep_of_reply (hpc : s.pc = .reply) : controllerStep s = emitReply s := by
  simp only [controllerStep, hpc, exec_currentInstr, runHandler_of_reply _ hpc]

end Equations

/-! ### The stops of the controller's step -/

section Stops

variable {s : State}

theorem controllerStep_extract_of_stopsAt {j : Nat} (hpc : s.pc = .extract)
    (h : ReadStopsAt s.cfg.inLineMax s.line 0 s.lineLen j) :
    controllerStep s =
      if s.cfg.inLineMax ≤ j then .refused .lineIndexOutOfRange else .fault .lineByteHoldsNoValue := by
  rw [controllerStep_of_extract hpc, extractFrame, andThen_readBytes_of_stopsAt (sp := lineSpace s.cfg) h,
    andThen_ite_stop, Nat.zero_add]
  rfl

theorem controllerStep_dispBegin_of_stopsAt {j : Nat} (hpc : s.pc = .dispBegin)
    (h : ReadStopsAt s.cfg.inLineMax s.line s.work.payLo s.work.payLen j) :
    controllerStep s =
      if s.cfg.inLineMax ≤ s.work.payLo + j then .refused .lineIndexOutOfRange else .fault .lineByteHoldsNoValue := by
  rw [controllerStep_of_dispBegin hpc, payload, andThen_readBytes_of_stopsAt (sp := lineSpace s.cfg) h]
  rfl

theorem controllerStep_reply_of_stopsAt {j : Nat} (hpc : s.pc = .reply)
    (h : ReadStopsAt s.cfg.outLineMax s.out 0 s.outLen j) :
    controllerStep s =
      if s.cfg.outLineMax ≤ j then .refused .outIndexOutOfRange else .fault .outByteHoldsNoValue := by
  rw [controllerStep_of_reply hpc, emitReply, andThen_readBytes_of_stopsAt (sp := outSpace s.cfg) h, Nat.zero_add]
  rfl

theorem controllerStep_adcRead_of_off {k : Nat} {ch : ChannelId} (hpc : s.pc = .exec k)
    (hq : s.work.plan[k]? = some (.adcRead ch)) (hoff : s.periph.refOn = false ∨ s.periph.adcOn = false) :
    controllerStep s = .refused .adcReadUnpowered := by
  rw [controllerStep_of_entry hpc hq, issueEntry, completeHal_adcRead_of_off hoff, andThen_refused]

theorem controllerStep_adcRead_of_five_le {k : Nat} {ch : ChannelId} (hpc : s.pc = .exec k)
    (hq : s.work.plan[k]? = some (.adcRead ch)) (hr : s.periph.refOn = true) (ha : s.periph.adcOn = true)
    (hn : 5 ≤ readsBefore s.work.plan k) : controllerStep s = .refused .noReadingRegister := by
  rw [← readIndex_eq_readsBefore] at hn
  rw [controllerStep_of_entry hpc hq, issueEntry, completeHal_adcRead_of_five_le hr ha hn, andThen_refused]

end Stops

/-- Settles O24: past the configuration check a step with nothing scheduled is a controller step, and each stop is an
equation of the operation that raises it. -/
theorem stopsHaveTheirNames : Obligations.StopsHaveTheirNames := by
  refine ⟨fun s hc => step_of_invalid hc,
    fun c m a => ⟨readByte_eq (lineSpace c) m a, readByte_eq (outSpace c) m a⟩,
    fun c m lo vs => ⟨fun h => writeBytes_of_size_lt (sp := lineSpace c) h m,
      fun h => writeBytes_of_size_lt (sp := outSpace c) h m⟩,
    fun s hc hs => ?_,
    fun i s hi hpc => (exec_eq_runHandler hi s).trans (runHandler_of_notInDispatch _ hpc)⟩
  rw [step_eq_controllerStep hc hs]
  refine ⟨fun j => controllerStep_extract_of_stopsAt, fun j => controllerStep_dispBegin_of_stopsAt,
    fun j => controllerStep_reply_of_stopsAt, fun k hpc hq hl => ?_,
    fun k ch hpc hq => ⟨controllerStep_adcRead_of_off hpc hq, controllerStep_adcRead_of_five_le hpc hq⟩,
    fun b later hpc hl hb => ?_⟩
  · exact (controllerStep_of_planDone hpc hq).trans (assembleReply_of_outLineMax_lt hl)
  · exact (controllerStep_of_wait hpc).trans
      (waitStep_of_not_deliverable hl ((deliverable_eq_false_iff s.cfg b).mpr hb))

/-! ### The build-time parameters -/

section Parameters

variable {s t : State}

theorem bootStep_cfg {q : HalReq} {after : Ctrl} (h : bootStep q after s = .next t) : t.cfg = s.cfg := by
  obtain ⟨u, hu, h⟩ := andThen_eq_next.mp h
  cases h
  exact (completeHal_frame hu).1

theorem waitStep_cfg (h : waitStep s = .next t) : t.cfg = s.cfg := by
  unfold waitStep at h
  split at h
  · cases h; rfl
  · split at h <;> cases h
    rfl

theorem extractFrame_cfg (h : extractFrame s = .next t) : t.cfg = s.cfg := by
  obtain ⟨m, wk, rfl, _⟩ := extractFrame_frame h
  rfl

theorem runHandler_cfg {hd : Handler} (h : runHandler hd s = .next t) : t.cfg = s.cfg := by
  obtain ⟨_, rfl⟩ | ⟨k, q, _, _, h⟩ | ⟨k, _, _, h⟩ | ⟨_, h⟩ | ⟨_, rfl⟩ := runHandler_cases h
  · rfl
  · obtain ⟨u, hu, rfl⟩ := issueEntry_cases h
    exact (completeHal_frame hu).1
  · obtain ⟨_, rfl⟩ := assembleReply_cases h
    rfl
  · obtain ⟨bs, _, rfl⟩ := emitReply_cases h
    rfl
  · exact autoIndicate_cfg s false

theorem exec_cfg {i : Instr} (h : exec i s = .next t) : t.cfg = s.cfg := by
  by_cases hi : i = .nopEmpty
  · subst hi; cases h; rfl
  · rw [exec_eq_runHandler hi] at h
    exact runHandler_cfg h

theorem afterExtract_cfg (h : afterExtract s = .next t) : t.cfg = s.cfg := by
  unfold afterExtract at h
  split at h
  · split at h
    · exact exec_cfg h
    · cases h; rfl
  · cases h; rfl

theorem controllerStep_cfg (h : controllerStep s = .next t) : t.cfg = s.cfg := by
  cases hpc : s.pc <;> simp only [controllerStep, hpc] at h
  case boot0 | boot1 | boot2 => exact bootStep_cfg h
  case wait => exact waitStep_cfg h
  case extract =>
    obtain ⟨u, hu, h⟩ := andThen_eq_next.mp h
    exact (afterExtract_cfg h).trans (extractFrame_cfg hu)
  case dispBegin =>
    obtain ⟨p, _, h⟩ := andThen_eq_next.mp h
    exact exec_cfg h
  case exec | reply | dispEnd => exact exec_cfg h

end Parameters

/-- Settles O44: every row of the controller leaves `cfg` alone, and so does each move of the environment, a reset
included. -/
theorem parametersNeverChange : Obligations.ParametersNeverChange := by
  intro s t h
  obtain ⟨_, ⟨_, h⟩ | ⟨moves, _, h⟩ | ⟨moves, _, _, rfl⟩ | ⟨moves, _, _, h⟩ | ⟨moves, _, rfl⟩⟩ := step_cases h
  · exact controllerStep_cfg h
  · exact (controllerStep_cfg h).trans (withSchedule_cfg s moves)
  · rfl
  · exact controllerStep_cfg h
  · rfl

end Sys2Proof.Machine

/-! What one row of the controller can do (spec/70_reset_and_hazards.md R225), said once as an inversion of
`controllerStep` and `step`; then what follows of it row by row for OVERRIDE and TRACE (O45, O46), and reset, boot, WAIT
and a hung transaction (O19, O21, O22, O23). -/

namespace Sys2Proof.Machine

/-! ### The rows of the controller -/

/-- The reply of the command being dispatched (R82, R133). -/
def currentReply (s : State) : Bytes := replyBytes s.work.op (dataOf s.cfg s.rd (currentInstr s))

/-- What a controller step that goes on does: one constructor per row of R225, its guard and its next state. -/
inductive ControllerRow (s : State) : State → Prop
  | boot0 (hpc : s.pc = .boot0) :
      ControllerRow s (goto .boot1 (record .refInit { s with periph := { s.periph with refOn := true } }))
  | boot1 (hpc : s.pc = .boot1) :
      ControllerRow s (goto .boot2 (record .adcInit { s with periph := { s.periph with adcOn := true } }))
  | boot2 (hpc : s.pc = .boot2) : ControllerRow s (goto .wait (indicate false s))
  | silentHost (hpc : s.pc = .wait) (hl : s.env.lines = []) : ControllerRow s s
  | takeLine {b : Bytes} {later : List Bytes} (hpc : s.pc = .wait) (hl : s.env.lines = b :: later)
      (hb : deliverable s.cfg b = true) :
      ControllerRow s (goto .extract (receiveLine b { s with env := { s.env with lines := later } }))
  | dropLine {u : State} (hpc : s.pc = .extract) (hx : extractFrame s = .next u)
      (hd : u.work.fres = .addressed → u.work.payLen = 0) : ControllerRow s (goto .wait u)
  | enterDispatch {u : State} (hpc : s.pc = .extract) (hx : extractFrame s = .next u)
      (hf : u.work.fres = .addressed) (hlen : u.work.payLen ≠ 0) : ControllerRow s (goto .dispBegin u)
  | emptyPayload (hpc : s.pc = .dispBegin) (hp : payload s = .next []) : ControllerRow s (goto .wait s)
  | beginCommand {op : Byte} {text : Bytes} (hpc : s.pc = .dispBegin) (hp : payload s = .next (op :: text)) :
      ControllerRow s (begun op (tokens text) (planOf s.cfg (decode (op :: text)))
        (writesOverride (decode (op :: text))) s)
  | transaction {k : Nat} {q : HalReq} {u : State} (hpc : s.pc = .exec k) (hq : s.work.plan[k]? = some q)
      (hu : completeHal q (readIndex s.work.plan k) s = .next u) :
      ControllerRow s { u with pc := .exec (k + 1), work := { u.work with k := k + 1 } }
  | assemble {k : Nat} (hpc : s.pc = .exec k) (hq : s.work.plan[k]? = none)
      (hlen : (currentReply s).length ≤ s.cfg.outLineMax) :
      ControllerRow s { s with pc := afterAssembly s.cfg, out := s.out.setBytes 0 (currentReply s)
                               outLen := (currentReply s).length }
  | transmit {bs : Bytes} (hpc : s.pc = .reply) (hb : readBytes (outSpace s.cfg) s.out 0 s.outLen = .next bs) :
      ControllerRow s { s with pc := afterReply s.cfg, trace := s.trace ++ [.writeLine bs] }
  | endDispatch (hpc : s.pc = .dispEnd) : ControllerRow s (endDispatch s)

/-- The handler of a classified command carries the opcode and the tokens it was classified by (R132). -/
theorem handlerOf_classify (op : Byte) (args : List Token) (s : State) :
    handlerOf (classify op args) s =
      { op := op, args := args, plan := planOf s.cfg (classify op args)
        setsOverride := writesOverride (classify op args), data := dataOf s.cfg s.rd (classify op args) } := by
  simp only [handlerOf, classify_fields]

section Equations

variable {s : State} {k : Nat}

theorem controllerStep_of_boot0 (hpc : s.pc = .boot0) : controllerStep s =
    .next (goto .boot1 (record .refInit { s with periph := { s.periph with refOn := true } })) := by
  simp only [controllerStep, hpc]; rfl

theorem controllerStep_of_boot1 (hpc : s.pc = .boot1) : controllerStep s =
    .next (goto .boot2 (record .adcInit { s with periph := { s.periph with adcOn := true } })) := by
  simp only [controllerStep, hpc]; rfl

theorem controllerStep_of_boot2 (hpc : s.pc = .boot2) :
    controllerStep s = .next (goto .wait (indicate false s)) := by
  simp only [controllerStep, hpc]; rfl

theorem waitStep_of_silent (hl : s.env.lines = []) : waitStep s = .next s := by
  simp only [waitStep, hl]

theorem waitStep_of_deliverable {b : Bytes} {later : List Bytes} (hl : s.env.lines = b :: later)
    (hb : deliverable s.cfg b = true) : waitStep s =
      .next (goto .extract (receiveLine b { s with env := { s.env with lines := later } })) := by
  simp only [waitStep, hl, hb, if_pos]

theorem exec_decode_cons (op : Byte) (text : Bytes) (hpc : s.pc = .dispBegin) : exec (decode (op :: text)) s =
    .next (begun op (tokens text) (planOf s.cfg (decode (op :: text))) (writesOverride (decode (op :: text))) s) := by
  rw [decode, exec_eq_runHandler (classify_ne_nopEmpty _ _), handlerOf_classify]
  simp only [runHandler, hpc, beginDispatch_eq_begun]

theorem controllerStep_of_assembly (hpc : s.pc = .exec k) (hq : s.work.plan[k]? = none) :
    controllerStep s = andThen (writeBytes (outSpace s.cfg) s.out 0 (currentReply s)) fun m =>
      .next { s with pc := afterAssembly s.cfg, out := m, outLen := (currentReply s).length } := by
  rw [controllerStep_of_planDone hpc hq, currentInstr, handlerOf_classify]
  rfl

theorem controllerStep_of_dispEnd (hpc : s.pc = .dispEnd) : controllerStep s = .next (endDispatch s) := by
  simp only [controllerStep, hpc, exec_currentInstr, runHandler]

end Equations

/-- Every controller step that goes on is one of the rows. -/
theorem controllerStep_row {s t : State} (h : controllerStep s = .next t) : ControllerRow s t := by
  cases hpc : s.pc with
  | boot0 => rw [controllerStep_of_boot0 hpc] at h; cases h; exact .boot0 hpc
  | boot1 => rw [controllerStep_of_boot1 hpc] at h; cases h; exact .boot1 hpc
  | boot2 => rw [controllerStep_of_boot2 hpc] at h; cases h; exact .boot2 hpc
  | wait =>
    rw [controllerStep_of_wait hpc] at h
    cases hl : s.env.lines with
    | nil => rw [waitStep_of_silent hl] at h; cases h; exact .silentHost hpc hl
    | cons b later =>
      cases hb : deliverable s.cfg b with
      | true => rw [waitStep_of_deliverable hl hb] at h; cases h; exact .takeLine hpc hl hb
      | false => rw [waitStep_of_not_deliverable hl hb] at h; cases h
  | extract =>
    rw [controllerStep_of_extract hpc] at h
    obtain ⟨u, hx, h⟩ := andThen_eq_next.mp h
    unfold afterExtract at h
    split at h
    · split at h <;> cases h
      · exact .dropLine hpc hx fun _ => ‹_›
      · exact .enterDispatch hpc hx ‹_› ‹_›
    · cases h; exact .dropLine hpc hx fun hf => absurd hf ‹_›
  | dispBegin =>
    rw [controllerStep_of_dispBegin hpc] at h
    obtain ⟨p, hp, h⟩ := andThen_eq_next.mp h
    cases p with
    | nil => cases h; exact .emptyPayload hpc hp
    | cons op text => rw [exec_decode_cons op text hpc] at h; cases h; exact .beginCommand hpc hp
  | exec k =>
    cases hq : s.work.plan[k]? with
    | some q =>
      rw [controllerStep_of_entry hpc hq] at h
      obtain ⟨u, hu, rfl⟩ := issueEntry_cases h
      exact .transaction hpc hq hu
    | none =>
      rw [controllerStep_of_assembly hpc hq] at h
      obtain ⟨m, hm, h⟩ := andThen_eq_next.mp h
      obtain ⟨hlen, rfl⟩ := writeBytes_eq_next.mp hm
      cases h
      exact .assemble hpc hq (by simpa using hlen)
  | reply =>
    rw [controllerStep_of_reply hpc] at h
    obtain ⟨bs, hb, rfl⟩ := emitReply_cases h
    exact .transmit hpc hb
  | dispEnd => rw [controllerStep_of_dispEnd hpc] at h; cases h; exact .endDispatch hpc

/-- A machine step that goes on waits for a hung transaction, is a row of the controller, or is a reset. -/
theorem step_row {s t : State} (h : step s = .next t) :
    configOk s.cfg = true ∧ (t = s ∨ (∃ moves, ControllerRow (withSchedule moves s) t)
      ∨ ∃ moves, s.env.schedule = .reset :: moves ∧ t = powerUp (withSchedule moves s)) := by
  obtain ⟨hc, ⟨_, h⟩ | ⟨moves, _, h⟩ | ⟨_, _, _, h⟩ | ⟨_, _, _, h⟩ | h⟩ := step_cases h
  · exact ⟨hc, .inr (.inl ⟨s.env.schedule, controllerStep_row h⟩)⟩
  · exact ⟨hc, .inr (.inl ⟨moves, controllerStep_row h⟩)⟩
  · exact ⟨hc, .inl h⟩
  · exact ⟨hc, .inr (.inl ⟨s.env.schedule, controllerStep_row h⟩)⟩
  · exact ⟨hc, .inr (.inr h)⟩

/-- Without a reset a machine step waits for a hung transaction or is a row of the controller. -/
theorem step_row_of_not_reset {s t : State} (h : step s = .next t) (hr : s.env.schedule.head? ≠ some .reset) :
    t = s ∨ ∃ moves, ControllerRow (withSchedule moves s) t := by
  obtain ⟨_, h | h | ⟨moves, hs, _⟩⟩ := step_row h
  · exact .inl h
  · exact .inr h
  · exact absurd (by rw [hs]; rfl) hr

/-! ### One event per step, and the sticky override -/

section Rows

variable {s t : State}

/-- R59: a row appends at most one event. -/
theorem ControllerRow.trace_le_one (h : ControllerRow s t) : t.trace = s.trace ∨ ∃ e, t.trace = s.trace ++ [e] := by
  cases h with
  | boot0 | boot1 | boot2 | takeLine | transmit => exact .inr ⟨_, rfl⟩
  | silentHost | emptyPayload | assemble => exact .inl rfl
  | dropLine _ hx | enterDispatch _ hx => obtain ⟨m, wk, rfl, _⟩ := extractFrame_frame hx; exact .inl rfl
  | beginCommand => cases ho : s.session.override <;> simp [begun, ho]
  | transaction _ _ hu =>
    obtain ⟨-, -, -, -, -, -, -, -, -, -, he⟩ := completeHal_frame hu
    exact .inr he
  | endDispatch => cases ho : s.session.override <;> simp [Machine.endDispatch, ho]

/-- The only command that writes OVERRIDE is `L` with a value (R142). -/
theorem writesOverride_eq_true_iff {i : Instr} : writesOverride i = true ↔ ∃ value rest, i = .l value rest := by
  cases i <;> simp [writesOverride]

/-- R25: a row keeps OVERRIDE, but for the DISP_BEGIN of `L` with a value, which sets it. -/
theorem ControllerRow.override_kept_or_set (h : ControllerRow s t) :
    t.session.override = s.session.override
      ∨ (t.session.override = true ∧ s.pc = .dispBegin
          ∧ ∃ p value rest, payload s = .next p ∧ decode p = .l value rest) := by
  cases h with
  | boot0 | boot1 | boot2 | silentHost | takeLine | emptyPayload | assemble | transmit => exact .inl rfl
  | dropLine _ hx | enterDispatch _ hx => obtain ⟨m, wk, rfl, _⟩ := extractFrame_frame hx; exact .inl rfl
  | @beginCommand op text hpc hp =>
    cases hw : writesOverride (decode (op :: text)) with
    | false => exact .inl (Bool.or_false _)
    | true =>
      obtain ⟨value, rest, hi⟩ := writesOverride_eq_true_iff.mp hw
      exact .inr ⟨Bool.or_true _, hpc, _, value, rest, hp, hi⟩
  | transaction _ _ hu =>
    obtain ⟨-, -, ho, -⟩ := completeHal_frame hu
    exact .inl ho
  | endDispatch => exact .inl (by simp [Machine.endDispatch])

end Rows

/-- Settles O45: a hung step changes nothing, and every row of the controller keeps OVERRIDE but the one of `L`. -/
theorem overrideIsSticky : Obligations.OverrideIsSticky := by
  intro s t h hr
  obtain rfl | ⟨moves, hrow⟩ := step_row_of_not_reset h hr
  · exact ⟨id, fun hoff hon => absurd hon (by simp [hoff])⟩
  · obtain ho | ⟨hset, hpc, hp⟩ := hrow.override_kept_or_set
    · exact ⟨ho.trans, fun hoff hon => absurd (ho.symm.trans hon) (by simp [hoff])⟩
    · exact ⟨fun _ => hset, fun _ _ => ⟨hpc, hp⟩⟩

/-- Settles O46: a hung step appends nothing, a row of the controller at most one event. -/
theorem oneTransactionPerStep : Obligations.OneTransactionPerStep := by
  intro s t h hr
  obtain rfl | ⟨moves, hrow⟩ := step_row_of_not_reset h hr
  · exact .inl rfl
  · exact hrow.trace_le_one

/-! ### Reset, boot, WAIT and a transaction that never completes -/

/-- With a hang scheduled and a transaction to wait for, a step changes nothing (R207). -/
theorem step_of_hang {s : State} {moves : List EnvMove} (hc : configOk s.cfg = true)
    (hs : s.env.schedule = .hang :: moves) :
    step s = if issuesTransaction s then .next s else controllerStep s := by
  simp only [step, scheduledStep, hs, ifConfigured_of_ok hc]

/-- A run whose every step changes nothing. -/
theorem run_of_step_self {s : State} (h : step s = .next s) (n : Nat) : run n s = .next s := by
  induction n with
  | zero => rfl
  | succ n ih => rw [run_next h, ih]

/-- Settles O23: a hung step answers the state itself, so every later step does too. -/
theorem hungTransactionWaitsForever : Obligations.HungTransactionWaitsForever := by
  intro s moves hc hs
  have hstep := step_of_hang hc hs
  refine ⟨fun hw => run_of_step_self ?_, fun hw => ?_⟩
  · rw [hstep, if_pos ((issuesTransaction_iff s).mpr hw)]
  · rw [hstep, if_neg (mt (issuesTransaction_iff s).mp hw)]

/-- R220: a reset comes in any control state. -/
theorem step_of_reset {s : State} {moves : List EnvMove} (hc : configOk s.cfg = true)
    (hs : s.env.schedule = .reset :: moves) : step s = .next (powerUp (withSchedule moves s)) := by
  simp only [step, scheduledStep, hs, ifConfigured_of_ok hc]

/-- Settles O22: the reset's next state is `powerUp`, whose fields are those of State.reset but for the parameters and
the environment. -/
theorem resetFromAnyState : Obligations.ResetFromAnyState := by
  intro s moves hc hs
  exact ⟨_, step_of_reset hc hs, rfl, rfl, rfl, rfl, rfl, rfl, rfl, rfl, fun _ => ⟨rfl, rfl⟩⟩

/-- R222: the three boot rows, one after the other. -/
theorem run_boot {s : State} (hpc : s.pc = .boot0) (hc : configOk s.cfg = true) (hs : s.env.schedule = []) :
    run 3 s = .next { s with
      pc := .wait, session := { s.session with ind := false }
      periph := { s.periph with refOn := true, adcOn := true }
      trace := s.trace ++ [.refInit, .adcInit, .indSet false] } := by
  simp [run_succ, step_eq_controllerStep, hc, hs, hpc, controllerStep_of_boot0, controllerStep_of_boot1,
    controllerStep_of_boot2, goto, indicate, record]

/-- Settles O19: the boot, run from the state a reset leaves. -/
theorem resetThenBootReachesWait : Obligations.ResetThenBootReachesWait :=
  ⟨rfl, rfl, rfl, rfl, rfl, rfl, fun s hc hs =>
    ⟨_, run_boot (s := powerUp s) rfl hc hs, rfl, rfl, rfl, rfl, rfl, rfl⟩⟩

/-- A received line is LINE's whole content (R31, log 4). -/
theorem byte?_receiveLine (b : Bytes) (s : State) (a : Nat) : (receiveLine b s).line.byte? a = b[a]? := by
  rw [receiveLine_line, byte?_setBytes]
  split
  · simp
  · exact (List.getElem?_eq_none (by omega)).symm

/-- Settles O21: the three outcomes of `waitStep`. -/
theorem waitTakesOneLine : Obligations.WaitTakesOneLine := by
  intro s hpc hc hs
  rw [step_eq_controllerStep hc hs, controllerStep_of_wait hpc]
  refine ⟨fun b later hl hb => ⟨_, waitStep_of_deliverable hl hb, rfl, byte?_receiveLine b s⟩,
    waitStep_of_silent, fun b later hl hb => ?_⟩
  exact waitStep_of_not_deliverable hl ((deliverable_eq_false_iff s.cfg b).mpr hb)

end Sys2Proof.Machine

/-! What a row of the controller does to the peripherals and the registers of a dispatched command: the plan is the
command's own (spec/42_commands.md R149), so nothing is closed and only `w` writes the DAC. O48, O49, and the invariant
of O53 and O54. -/

namespace Sys2Proof.Machine

/-! ### The plan of a dispatched command -/

section Plans

variable {s t : State} {q : HalReq} {k i : Nat}

/-- What the invariant says of EXEC(k). -/
theorem controlInv_exec_iff (hpc : s.pc = .exec k) :
    ControlInv s ↔ k ≤ s.work.plan.length ∧ s.work.k = k ∧ s.work.plan = planOf s.cfg (currentInstr s)
      ∧ OverrideWritten s := by
  simp only [ControlInv, hpc]

/-- What the invariant says of REPLY. -/
theorem controlInv_reply_iff (hpc : s.pc = .reply) : ControlInv s ↔ ReplyInOut s ∧ OverrideWritten s := by
  simp only [ControlInv, hpc]

/-- What the invariant says of DISP_END. -/
theorem controlInv_dispEnd_iff (hpc : s.pc = .dispEnd) :
    ControlInv s ↔ OverrideWritten s ∧ (s.cfg.replyBeforeIndOff = false → ReplyInOut s) := by
  simp only [ControlInv, hpc]

/-- WAIT finds nothing it reads. -/
theorem controlInv_of_wait (hpc : s.pc = .wait) : ControlInv s := by
  simp only [ControlInv, hpc]

/-- Under the invariant the k-th transaction is one of the dispatched command's own. -/
theorem mem_planOf_of_controlInv (hi : ControlInv s) (hpc : s.pc = .exec k) (hq : s.work.plan[k]? = some q) :
    q ∈ planOf s.cfg (currentInstr s) := by
  obtain ⟨-, -, hplan, -⟩ := (controlInv_exec_iff hpc).mp hi
  exact hplan ▸ List.mem_of_getElem? hq

/-- R178: no command's plan closes the reference or the ADC. -/
theorem not_close_of_mem_planOf {c : Config} {i : Instr} (hq : q ∈ planOf c i) :
    q ≠ .referenceClose ∧ q ≠ .adcClose := by
  constructor <;> rintro rfl <;> cases i <;> simp [planOf] at hq

/-- A completed `adcRead` (R33, R177, R179). -/
theorem completeHal_adcRead_eq_next {ch : ChannelId} : completeHal (.adcRead ch) i s = .next t ↔
    s.periph.refOn = true ∧ s.periph.adcOn = true ∧ i < 5 ∧ storeReading ch i s = t := by
  by_cases hp : s.periph.refOn = true ∧ s.periph.adcOn = true
  · by_cases hi : i < 5 <;> simp [completeHal, hp, hi]
  · simp only [completeHal, Bool.and_eq_true, if_neg hp, reduceCtorEq, false_iff]
    exact fun h => hp ⟨h.1, h.2.1⟩

/-- A transaction that is no close turns nothing off (R177). -/
theorem completeHal_keeps_power (h : completeHal q i s = .next t) (hq : q ≠ .referenceClose ∧ q ≠ .adcClose) :
    (s.periph.refOn = true → t.periph.refOn = true) ∧ (s.periph.adcOn = true → t.periph.adcOn = true) := by
  cases q with
  | adcRead ch => obtain ⟨-, -, -, rfl⟩ := completeHal_adcRead_eq_next.mp h; exact ⟨id, id⟩
  | referenceClose => exact absurd rfl hq.1
  | adcClose => exact absurd rfl hq.2
  | referenceInit => cases h; exact ⟨fun _ => rfl, id⟩
  | adcInit => cases h; exact ⟨id, fun _ => rfl⟩
  | dacSetLevel | referenceOutputEnable | indicatorSet => cases h; exact ⟨id, id⟩

/-- Outside boot and PLAN no row touches Peripheral State. -/
theorem ControllerRow.power_kept (h : ControllerRow s t) (hi : ControlInv s) :
    (s.periph.refOn = true → t.periph.refOn = true) ∧ (s.periph.adcOn = true → t.periph.adcOn = true) := by
  cases h with
  | boot0 => exact ⟨fun _ => rfl, id⟩
  | boot1 => exact ⟨id, fun _ => rfl⟩
  | boot2 | silentHost | takeLine | emptyPayload | beginCommand | assemble | transmit => exact ⟨id, id⟩
  | dropLine _ hx | enterDispatch _ hx => obtain ⟨m, wk, rfl, _⟩ := extractFrame_frame hx; exact ⟨id, id⟩
  | transaction hpc hq hu =>
    have hkept := completeHal_keeps_power hu (not_close_of_mem_planOf (mem_planOf_of_controlInv hi hpc hq))
    exact hkept
  | endDispatch => simp [Machine.endDispatch]

end Plans

/-- Settles O48: a hung step changes nothing, and no row of the controller turns the reference or the ADC off. -/
theorem referenceAndAdcStayOn : Obligations.ReferenceAndAdcStayOn := by
  intro s t ⟨_, _, _, _, hi⟩ h hr
  obtain rfl | ⟨moves, hrow⟩ := step_row_of_not_reset h hr
  · exact ⟨id, id⟩
  · exact hrow.power_kept hi

/-! ### The DAC -/

/-- A transaction that writes DAC_OUT_ON or DAC_LEVEL (R177). -/
def HalReq.writesDac : HalReq → Bool
  | .dacSetLevel _ => true
  | .referenceOutputEnable _ => true
  | _ => false

/-- The event of such a transaction. -/
def Event.writesDac : Event → Bool
  | .dacSetLevel _ => true
  | .refOutEn _ => true
  | _ => false

/-- The step from `s` to `t` completes a write of DAC_OUT_ON or DAC_LEVEL, or changes one of them. -/
def DacTouched (s t : State) : Prop :=
  (∃ l, t.trace = s.trace ++ [.dacSetLevel l]) ∨ (∃ b, t.trace = s.trace ++ [.refOutEn b])
    ∨ t.periph.dacOutOn ≠ s.periph.dacOutOn ∨ t.periph.dacLevel ≠ s.periph.dacLevel

section Dac

variable {s t : State}

/-- A step whose events are of another kind, and that keeps both fields, does not touch the DAC. -/
theorem not_dacTouched {new : List Event} (htrace : t.trace = s.trace ++ new) (hnew : ∀ e ∈ new, e.writesDac = false)
    (hon : t.periph.dacOutOn = s.periph.dacOutOn) (hlevel : t.periph.dacLevel = s.periph.dacLevel) :
    ¬ DacTouched s t := by
  rintro (⟨l, he⟩ | ⟨b, he⟩ | hne | hne)
  · have := hnew (.dacSetLevel l) (by rw [List.append_cancel_left (htrace.symm.trans he)]; simp)
    cases this
  · have := hnew (.refOutEn b) (by rw [List.append_cancel_left (htrace.symm.trans he)]; simp)
    cases this
  · exact hne hon
  · exact hne hlevel

/-- Only the two DAC transactions touch the DAC (R177). -/
theorem not_dacTouched_of_completeHal {q : HalReq} {i : Nat} (h : completeHal q i s = .next t)
    (hq : q.writesDac = false) : ¬ DacTouched s t := by
  cases q with
  | adcRead ch =>
    obtain ⟨-, -, -, rfl⟩ := completeHal_adcRead_eq_next.mp h
    exact not_dacTouched (storeReading_trace s ch i) (by simp [Event.writesDac]) rfl rfl
  | dacSetLevel | referenceOutputEnable => cases hq
  | referenceInit | referenceClose | adcInit | adcClose | indicatorSet =>
    cases h
    exact not_dacTouched (record_trace _ _) (by simp [Event.writesDac]) rfl rfl

/-- A row that touches the DAC is a DAC transaction of PLAN. -/
theorem ControllerRow.transaction_of_dacTouched (h : ControllerRow s t) (hd : DacTouched s t) :
    ∃ k q, s.pc = .exec k ∧ s.work.plan[k]? = some q ∧ q.writesDac = true := by
  by_contra hno
  refine absurd hd ?_
  have quiet {u : State} (htrace : u.trace = s.trace) (hp : u.periph = s.periph) : ¬ DacTouched s u :=
    not_dacTouched (new := []) (htrace.trans (List.append_nil _).symm) nofun (by rw [hp]) (by rw [hp])
  cases h with
  | boot0 | boot1 | boot2 | takeLine | transmit =>
    exact not_dacTouched rfl (by simp [Event.writesDac]) rfl rfl
  | silentHost | emptyPayload | assemble => exact quiet rfl rfl
  | dropLine _ hx | enterDispatch _ hx => obtain ⟨m, wk, rfl, _⟩ := extractFrame_frame hx; exact quiet rfl rfl
  | beginCommand =>
    refine not_dacTouched rfl (fun e he => ?_) rfl rfl
    cases ho : s.session.override <;> simp_all [Event.writesDac]
  | @transaction k q u hpc hq hu =>
    have huntouched := not_dacTouched_of_completeHal hu (Bool.eq_false_iff.mpr fun hw => hno ⟨k, q, hpc, hq, hw⟩)
    exact huntouched
  | endDispatch =>
    refine not_dacTouched (autoIndicate_trace s false) (fun e he => ?_) ?_ ?_
    · cases ho : s.session.override <;> simp_all [Event.writesDac]
    · exact congrArg Periph.dacOutOn (autoIndicate_periph s false)
    · exact congrArg Periph.dacLevel (autoIndicate_periph s false)

/-- R149: a plan with a DAC transaction belongs to a command with the opcode `w`. -/
theorem op_of_writesDac_mem_planOf {c : Config} {op : Byte} {args : List Token} {q : HalReq}
    (hq : q ∈ planOf c (classify op args)) (hw : q.writesDac = true) : op = chW := by
  have hf := classify_fields op args
  cases hi : classify op args with
  | w level flag rest => rw [hi] at hf; cases flag <;> cases hf <;> rfl
  | wOff => rw [hi] at hf; cases hf; rfl
  | nopEmpty | v | lNoValue | wMissing | unknown => simp [hi, planOf] at hq
  | l => rw [hi] at hq; cases List.mem_singleton.mp hq; cases hw
  | a =>
    simp only [hi, planOf, List.mem_cons, List.not_mem_nil, or_false] at hq
    rcases hq with rfl | rfl | rfl | rfl | rfl <;> cases hw

end Dac

/-- Settles O49: a row that touches the DAC is a DAC transaction of PLAN, and PLAN is that of the command dispatched. -/
theorem dacWrittenOnlyByW : Obligations.DacWrittenOnlyByW := by
  intro s t ⟨_, _, _, _, hi⟩ h hr hd
  obtain rfl | ⟨moves, hrow⟩ := step_row_of_not_reset h hr
  · exact absurd hd (not_dacTouched (List.append_nil _).symm nofun rfl rfl)
  · obtain ⟨k, q, hpc, hq, hw⟩ := hrow.transaction_of_dacTouched hd
    exact ⟨⟨k, hpc⟩, op_of_writesDac_mem_planOf (mem_planOf_of_controlInv hi hpc hq) hw⟩

/-! ### The invariant, part by part -/

/-- Writing keeps the bytes that hold values (R52). -/
theorem HoldsValues.setBytes {m : Memory} {lo n : Nat} (h : HoldsValues m lo n) (at_ : Nat) (vs : Bytes) :
    HoldsValues (m.setBytes at_ vs) lo n := by
  intro i hi
  rw [byte?_setBytes]
  split
  · rw [List.getElem?_eq_getElem (by omega)]; rfl
  · exact h i hi

/-- Bytes written stand where they were written. -/
theorem holds_setBytes (m : Memory) (lo : Nat) (vs : Bytes) : Holds (m.setBytes lo vs) lo vs := by
  intro i hi
  rw [byte?_setBytes, if_pos (by omega), Nat.add_sub_cancel_left]

/-- A part of a filled range is filled. -/
theorem HoldsValues.part {m : Memory} {n lo len : Nat} (h : HoldsValues m 0 n) (hle : lo + len ≤ n) :
    HoldsValues m lo len := by
  intro i hi
  have := h (lo + i) (by omega)
  rwa [Nat.zero_add] at this

theorem Holds.holdsValues {m : Memory} {lo : Nat} {bs : Bytes} (h : Holds m lo bs) : HoldsValues m lo bs.length := by
  intro i hi
  rw [h i hi, List.getElem?_eq_getElem hi]
  rfl

/-- The end marker lies in the window, after the start marker (R104). -/
theorem scanFrame_addressed_bounds {nodeId : Byte} {win : Bytes} {i e : Nat}
    (h : scanFrame nodeId win = .addressed i e) : i < e ∧ e < win.length := by
  unfold scanFrame at h
  split at h
  · cases h
  · split at h
    · cases h
    · rename_i d hd
      split at h <;> cases h
      obtain ⟨hlt, -⟩ := List.findIdx?_eq_some_iff_getElem.mp hd
      rw [List.length_drop] at hlt
      omega

theorem window_length_le (line : Bytes) : (window line).length ≤ line.length := (List.takeWhile_sublist _).length_le

/-- R107, R111: what extraction leaves of an addressed frame with a payload: the payload view ends inside the line. -/
theorem extractFrame_payload {s u : State} (h : extractFrame s = .next u) (hf : u.work.fres = .addressed)
    (hlen : u.work.payLen ≠ 0) : u.work.payLo + u.work.payLen < s.lineLen := by
  obtain ⟨line, hl, h⟩ := andThen_eq_next.mp h
  obtain ⟨hlen', -, -⟩ := holds_of_readBytes hl
  cases hsc : scanFrame s.cfg.nodeId (window line) with
  | noStart | noEnd | notForMe => rw [hsc] at h; cases h; cases hf
  | addressed i e =>
    rw [hsc] at h
    obtain ⟨m, -, h⟩ := andThen_eq_next.mp h
    cases h
    have ⟨_, he⟩ := scanFrame_addressed_bounds hsc
    have hw := window_length_le line
    simp only at hlen ⊢
    omega

section Invariant

variable {s t : State}

/-- A row keeps both buffers canonical and within their sizes. -/
theorem ControllerRow.bufferInv (h : ControllerRow s t) (hb : BufferInv s) : BufferInv t := by
  obtain ⟨hwl, hwo, hml, hmo, hll, hol⟩ := id hb
  cases h with
  | boot0 | boot1 | boot2 | silentHost | emptyPayload | beginCommand | transmit => exact hb
  | @takeLine b _ _ _ hd =>
    have hlen : b.length ≤ s.cfg.inLineMax := by simp [deliverable] at hd; exact hd.1
    refine ⟨wf_setBytes wf_nil 0 b, hwo, fun c hc => ?_, hmo, hlen, hol⟩
    obtain hc | hc := mem_setBytes hc
    · cases hc
    · exact (by omega : c.1 < s.cfg.inLineMax)
  | dropLine _ hx | enterDispatch _ hx =>
    obtain ⟨m, wk, rfl, rfl | ⟨e, rfl, he⟩, -⟩ := extractFrame_frame hx
    · exact hb
    · refine ⟨wf_setBytes hwl e _, hwo, fun c hc => ?_, hmo, hll, hol⟩
      obtain hc | hc := mem_setBytes hc
      · exact hml c hc
      · simp only [List.length_singleton] at hc
        exact (by omega : c.1 < s.cfg.inLineMax)
  | transaction _ _ hu =>
    obtain ⟨hcfg, -, -, hline, hlineLen, hout, houtLen, -⟩ := completeHal_frame hu
    simpa only [BufferInv, hcfg, hline, hlineLen, hout, houtLen] using hb
  | assemble _ _ hlen =>
    refine ⟨hwl, wf_setBytes hwo 0 _, hml, fun c hc => ?_, hll, hlen⟩
    obtain hc | hc := mem_setBytes hc
    · exact hmo c hc
    · exact (by omega : c.1 < s.cfg.outLineMax)
  | endDispatch => simpa [BufferInv, Machine.endDispatch] using hb

/-- R221: what BOOT0 leaves. -/
theorem ControllerRow.of_boot0 (h : ControllerRow s t) (h0 : s.pc = .boot0) :
    t.pc = .boot1 ∧ t.periph.refOn = true := by
  cases h with
  | boot0 => exact ⟨rfl, rfl⟩
  | boot1 hpc | boot2 hpc | silentHost hpc | takeLine hpc | dropLine hpc | enterDispatch hpc | emptyPayload hpc
  | beginCommand hpc | transaction hpc | assemble hpc | transmit hpc | endDispatch hpc => cases hpc.symm.trans h0

/-- R221: what BOOT1 leaves. -/
theorem ControllerRow.of_boot1 (h : ControllerRow s t) (h1 : s.pc = .boot1) : t.periph.adcOn = true := by
  cases h with
  | boot1 => rfl
  | boot0 hpc | boot2 hpc | silentHost hpc | takeLine hpc | dropLine hpc | enterDispatch hpc | emptyPayload hpc
  | beginCommand hpc | transaction hpc | assemble hpc | transmit hpc | endDispatch hpc => cases hpc.symm.trans h1

/-- A row keeps the reference and the ADC on after boot. -/
theorem ControllerRow.powerInv (h : ControllerRow s t) (hp : PowerInv s) (hi : ControlInv s) : PowerInv t := by
  obtain ⟨href, hadc⟩ := hp
  obtain ⟨kref, kadc⟩ := h.power_kept hi
  by_cases h0 : s.pc = .boot0
  · obtain ⟨hpc, hon⟩ := h.of_boot0 h0
    exact ⟨fun _ => hon, fun _ hne => absurd hpc hne⟩
  · by_cases h1 : s.pc = .boot1
    · exact ⟨fun _ => kref (href h0), fun _ _ => h.of_boot1 h1⟩
    · exact ⟨fun _ => kref (href h0), fun _ _ => kadc (hadc h0 h1)⟩

/-- The range of the readings, register by register. -/
theorem readingInv_iff : ReadingInv s ↔ ∀ j (hj : j < 5), s.rd[j] ≤ s.cfg.adcMax := by
  simp only [ReadingInv, Vector.mem_toList_iff, Vector.forall_mem_iff_forall_getElem]

theorem ReadingInv.storeReading (hr : ReadingInv s) (ch : ChannelId) (i : Nat) :
    ReadingInv (storeReading ch i s) := by
  rw [readingInv_iff] at hr ⊢
  intro j hj
  rw [storeReading_rd, Vector.getElem_setIfInBounds]
  split
  · exact nextReading_le s
  · exact hr j hj

/-- A row writes only readings within 0..ADC_MAX. -/
theorem ControllerRow.readingInv (h : ControllerRow s t) (hr : ReadingInv s) : ReadingInv t := by
  cases h with
  | boot0 | boot1 | boot2 | silentHost | takeLine | emptyPayload | beginCommand | assemble | transmit => exact hr
  | dropLine _ hx | enterDispatch _ hx => obtain ⟨m, wk, rfl, _⟩ := extractFrame_frame hx; exact hr
  | @transaction _ q _ _ _ hu =>
    cases q with
    | adcRead ch =>
      obtain ⟨-, -, -, rfl⟩ := completeHal_adcRead_eq_next.mp hu
      exact hr.storeReading ch _
    | _ => cases hu; exact hr
  | endDispatch => simpa [ReadingInv, Machine.endDispatch] using hr

/-- The assembled reply stands in OUT (R133). -/
theorem replyInOut_assembled (s : State) (c : Ctrl) :
    ReplyInOut { s with pc := c, out := s.out.setBytes 0 (currentReply s), outLen := (currentReply s).length } :=
  ⟨holds_setBytes s.out 0 (currentReply s), replyBytes_length _ _⟩

/-- A row leaves what the next control state reads. -/
theorem ControllerRow.controlInv (h : ControllerRow s t) (hb : BufferInv s) (hi : ControlInv s) : ControlInv t := by
  cases h with
  | boot0 | boot1 | boot2 | dropLine | emptyPayload => trivial
  | silentHost => exact hi
  | @takeLine b => exact (holds_setBytes [] 0 b).holdsValues
  | enterDispatch hpc hx hf hlen =>
    have hview := extractFrame_payload hx hf hlen
    obtain ⟨m, wk, rfl, hm, -⟩ := extractFrame_frame hx
    obtain ⟨-, -, -, -, hll, -⟩ := hb
    have hline : HoldsValues s.line 0 s.lineLen := by simpa only [ControlInv, hpc] using hi
    have hm : HoldsValues m 0 s.lineLen := by
      obtain rfl | ⟨e, rfl, -⟩ := hm
      · exact hline
      · exact hline.setBytes e _
    exact ⟨Nat.one_le_iff_ne_zero.mpr hlen, hm.part hview.le, hview.le.trans hll⟩
  | beginCommand =>
    refine (controlInv_exec_iff rfl).mpr ⟨Nat.zero_le _, rfl, rfl, fun hw => ?_⟩
    exact Bool.or_eq_true_iff.mpr (.inr hw)
  | transaction hpc hq hu =>
    obtain ⟨-, -, hplan, hover⟩ := (controlInv_exec_iff hpc).mp hi
    obtain ⟨hcfg, -, ho, -, -, -, -, hwork, -⟩ := completeHal_frame hu
    obtain ⟨hk, -⟩ := List.getElem?_eq_some_iff.mp hq
    refine (controlInv_exec_iff rfl).mpr ⟨?_, rfl, ?_, ?_⟩
    · simpa only [hwork] using Nat.succ_le_of_lt hk
    · simpa only [currentInstr, hwork, hcfg] using hplan
    · simpa only [OverrideWritten, currentInstr, hwork, ho] using hover
  | assemble hpc =>
    obtain ⟨-, -, -, hover⟩ := (controlInv_exec_iff hpc).mp hi
    have hreply := replyInOut_assembled s (afterAssembly s.cfg)
    cases hp : s.cfg.replyBeforeIndOff with
    | true => exact (controlInv_reply_iff (by simp [afterAssembly, hp])).mpr ⟨hreply, hover⟩
    | false => exact (controlInv_dispEnd_iff (by simp [afterAssembly, hp])).mpr ⟨hover, fun _ => hreply⟩
  | transmit hpc =>
    obtain ⟨-, hover⟩ := (controlInv_reply_iff hpc).mp hi
    cases hp : s.cfg.replyBeforeIndOff with
    | true =>
      exact (controlInv_dispEnd_iff (by simp [afterReply, hp])).mpr ⟨hover, fun hf => nomatch hp.symm.trans hf⟩
    | false => exact controlInv_of_wait (by simp [afterReply, hp])
  | endDispatch hpc =>
    obtain ⟨hover, hreply⟩ := (controlInv_dispEnd_iff hpc).mp hi
    cases hp : s.cfg.replyBeforeIndOff with
    | true => exact controlInv_of_wait (by simp [Machine.endDispatch, afterDispEnd, hp])
    | false =>
      refine (controlInv_reply_iff (by simp [Machine.endDispatch, afterDispEnd, hp])).mpr ?_
      simpa [Machine.endDispatch, ReplyInOut, OverrideWritten, currentInstr] using And.intro (hreply hp) hover

/-- A row of the controller keeps the whole invariant. -/
theorem ControllerRow.machineInv (h : ControllerRow s t) (hi : MachineInv s) (hcfg : t.cfg = s.cfg) :
    MachineInv t := by
  obtain ⟨hc, hb, hp, hr, hctl⟩ := hi
  exact ⟨hcfg ▸ hc, h.bufferInv hb, h.powerInv hp hctl, h.readingInv hr, h.controlInv hb hctl⟩

/-- Whatever a reset interrupts, it leaves the invariant (R36, R220). -/
theorem machineInv_powerUp (hc : configOk s.cfg = true) : MachineInv (powerUp s) := by
  refine ⟨hc, ⟨wf_nil, wf_nil, nofun, nofun, Nat.zero_le _, Nat.zero_le _⟩, ⟨absurd rfl, absurd rfl⟩, ?_, trivial⟩
  refine readingInv_iff.mpr fun j hj => ?_
  have hzero : ∀ j (hj : j < 5), State.reset.rd[j] = 0 := by decide
  exact (hzero j hj).le.trans (Nat.zero_le _)

end Invariant

/-- Settles O53: State.reset is a power-up of itself, and its configuration is valid. -/
theorem invariantHoldsAtReset : Obligations.InvariantHoldsAtReset :=
  machineInv_powerUp (s := State.reset) (by decide)

/-- Settles O54: a hung step changes nothing, a row of the controller keeps each part of the invariant, and a reset
starts it anew. -/
theorem invariantKeptByStep : Obligations.InvariantKeptByStep := by
  intro s t hi h
  obtain ⟨hc, rfl | ⟨moves, hrow⟩ | ⟨moves, _, rfl⟩⟩ := step_row h
  · exact hi
  · exact hrow.machineInv (s := withSchedule moves s) hi (parametersNeverChange s t h)
  · exact machineInv_powerUp hc

end Sys2Proof.Machine

/-! Noninterference of earlier cycles (spec/10_state.md R37, O58): two runs agree on the live state and on whatever the
current cycle has already written, for every rule reads a buffer, RD or a working register only after writing it. -/

namespace Sys2Proof.Machine

/-! ### Outcomes of two runs -/

section Outcomes

variable {rel rel' : State → State → Prop}

/-- Two outcomes of one kind, taken apart. -/
theorem SameOutcome.kinds {x y : Result State} (h : SameOutcome rel x y) :
    (∃ u v, x = .next u ∧ y = .next v ∧ rel u v) ∨ (∃ e, x = .fault e ∧ y = .fault e)
      ∨ ∃ r, x = .refused r ∧ y = .refused r := by
  cases x with
  | next u => cases y <;> simp_all [SameOutcome]
  | fault e => cases y <;> simp_all [SameOutcome]
  | refused r => cases y <;> simp_all [SameOutcome]

theorem SameOutcome.mono (hle : ∀ u v, rel u v → rel' u v) {x y : Result State} (h : SameOutcome rel x y) :
    SameOutcome rel' x y := by
  obtain ⟨u, v, rfl, rfl, huv⟩ | ⟨e, rfl, rfl⟩ | ⟨r, rfl, rfl⟩ := h.kinds
  · exact hle u v huv
  · rfl
  · rfl

/-- Related outcomes go on to related outcomes. -/
theorem SameOutcome.andThen {f g : State → Result State} {x y : Result State} (h : SameOutcome rel x y)
    (hfg : ∀ u v, rel u v → SameOutcome rel' (f u) (g v)) :
    SameOutcome rel' (Machine.andThen x f) (Machine.andThen y g) := by
  obtain ⟨u, v, rfl, rfl, huv⟩ | ⟨e, rfl, rfl⟩ | ⟨r, rfl, rfl⟩ := h.kinds
  · exact hfg u v huv
  · rfl
  · rfl

/-- One outcome, of whatever type, gone on with in two ways. -/
theorem sameOutcome_andThen_self {α : Type} {f g : α → Result State} (x : Result α)
    (hfg : ∀ a, SameOutcome rel (f a) (g a)) : SameOutcome rel (andThen x f) (andThen x g) := by
  cases x with
  | next a => exact hfg a
  | fault | refused => rfl

end Outcomes

/-! ### What the current cycle has written -/

/-- The first `n` reading registers agree. -/
def SameReadings (n : Nat) (s t : State) : Prop := ∀ j (_ : j < 5), j < n → s.rd[j] = t.rd[j]

/-- The replies in OUT agree. -/
def SameReply (s t : State) : Prop := s.outLen = t.outLen ∧ ∀ a < s.outLen, s.out.byte? a = t.out.byte? a

/-- The commands being dispatched, and their plans, agree. -/
def SameCommand (s t : State) : Prop :=
  s.work.op = t.work.op ∧ s.work.args = t.work.args ∧ s.work.plan = t.work.plan
    ∧ s.work.plan = planOf s.cfg (currentInstr s)

/-- What the current cycle has written by each control state, and a later row of it may read, agrees (R34). -/
def SameWritten (s t : State) : Prop :=
  match s.pc with
  | .extract => s.line = t.line ∧ s.lineLen = t.lineLen
  | .dispBegin => s.line = t.line ∧ s.work.payLo = t.work.payLo ∧ s.work.payLen = t.work.payLen
  | .exec k => SameCommand s t ∧ SameReadings (readIndex s.work.plan k) s t
  | .reply => SameReply s t
  | .dispEnd => SameReply s t
  | _ => True

/-- The relation every step keeps: the live state and the current cycle's own writes agree. -/
def SameSoFar (s t : State) : Prop := SameLive s t ∧ SameWritten s t

section TwoRuns

variable {s t u v : State} {k n : Nat}

theorem SameLive.goto (hl : SameLive s t) (c : Ctrl) : SameLive (goto c s) (goto c t) := by
  obtain ⟨hcfg, -, hses, hper, htr, henv⟩ := hl
  exact ⟨hcfg, rfl, hses, hper, htr, henv⟩

/-- Waiting states have written nothing that is read again. -/
theorem SameLive.sameSoFar_goto_wait (hl : SameLive s t) : SameSoFar (Machine.goto .wait s) (Machine.goto .wait t) :=
  ⟨hl.goto .wait, trivial⟩

theorem sameWritten_exec_iff (hpc : s.pc = .exec k) :
    SameWritten s t ↔ SameCommand s t ∧ SameReadings (readIndex s.work.plan k) s t := by
  simp only [SameWritten, hpc]

theorem SameReply.sameWritten (h : SameReply s t) (hpc : s.pc = .reply ∨ s.pc = .dispEnd ∨ s.pc = .wait) :
    SameWritten s t := by
  rcases hpc with hpc | hpc | hpc <;> simp only [SameWritten, hpc, h]

/-! ### Boot, WAIT and EXTRACT -/

theorem sameSoFar_bootStep {q : HalReq} {after : Ctrl} (hl : SameLive s t)
    (hboot : q = .referenceInit ∧ after = .boot1 ∨ q = .adcInit ∧ after = .boot2
      ∨ q = .indicatorSet false ∧ after = .wait) :
    SameOutcome SameSoFar (bootStep q after s) (bootStep q after t) := by
  obtain ⟨hcfg, hpc, hses, hper, htr, henv⟩ := hl
  rcases hboot with ⟨rfl, rfl⟩ | ⟨rfl, rfl⟩ | ⟨rfl, rfl⟩ <;>
    exact ⟨⟨hcfg, rfl, by simp [hses], by simp [hper], by simp [htr], henv⟩, trivial⟩

theorem sameSoFar_waitStep (hl : SameLive s t) (hpc : s.pc = .wait) :
    SameOutcome SameSoFar (waitStep s) (waitStep t) := by
  obtain ⟨hcfg, -, hses, hper, htr, henv⟩ := id hl
  cases hlines : s.env.lines with
  | nil =>
    rw [waitStep_of_silent hlines, waitStep_of_silent (henv ▸ hlines)]
    exact ⟨hl, by simp only [SameWritten, hpc]⟩
  | cons b later =>
    cases hb : deliverable s.cfg b with
    | true =>
      rw [waitStep_of_deliverable hlines hb, waitStep_of_deliverable (henv ▸ hlines) (hcfg ▸ hb)]
      exact ⟨⟨hcfg, rfl, hses, hper, by simp [htr], by simp [henv]⟩, rfl, rfl⟩
    | false =>
      rw [waitStep_of_not_deliverable hlines hb, waitStep_of_not_deliverable (henv ▸ hlines) (hcfg ▸ hb)]
      rfl

/-- What extraction leaves in both runs: FRES, and on the addressed path the payload view. -/
def SameExtracted (s t : State) : Prop :=
  SameLive s t ∧ s.line = t.line ∧ s.work.fres = t.work.fres
    ∧ (s.work.fres = .addressed → s.work.payLo = t.work.payLo ∧ s.work.payLen = t.work.payLen)

theorem sameExtracted_applyScan (hl : SameLive s t) (hline : s.line = t.line) (sc : Scan) :
    SameOutcome SameExtracted (applyScan sc s) (applyScan sc t) := by
  cases sc with
  | noStart | noEnd | notForMe => exact ⟨hl, hline, rfl, nofun⟩
  | addressed i e =>
    obtain ⟨hcfg, hlive⟩ := hl
    simp only [applyScan, ← hline, ← hcfg]
    exact sameOutcome_andThen_self _ fun m => ⟨⟨rfl, hlive⟩, rfl, rfl, fun _ => ⟨rfl, rfl⟩⟩

theorem sameExtracted_extractFrame (hl : SameLive s t) (hline : s.line = t.line) (hlen : s.lineLen = t.lineLen) :
    SameOutcome SameExtracted (extractFrame s) (extractFrame t) := by
  simp only [extractFrame, ← hl.1, ← hline, ← hlen]
  exact sameOutcome_andThen_self _ fun line => sameExtracted_applyScan hl hline _

theorem SameExtracted.afterExtract (h : SameExtracted u v) :
    SameOutcome SameSoFar (afterExtract u) (afterExtract v) := by
  obtain ⟨hl, hline, hf, hview⟩ := h
  unfold Machine.afterExtract
  rw [← hf]
  by_cases ha : u.work.fres = .addressed
  · obtain ⟨hlo, hlen⟩ := hview ha
    rw [if_pos ha, if_pos ha, ← hlen]
    split
    · exact hl.sameSoFar_goto_wait
    · exact ⟨hl.goto .dispBegin, hline, hlo, hlen⟩
  · rw [if_neg ha, if_neg ha]
    exact hl.sameSoFar_goto_wait

/-! ### The dispatch -/

theorem sameSoFar_dispBegin (hl : SameLive s t) (hpc : s.pc = .dispBegin) (hline : s.line = t.line)
    (hlo : s.work.payLo = t.work.payLo) (hlen : s.work.payLen = t.work.payLen) :
    SameOutcome SameSoFar (controllerStep s) (controllerStep t) := by
  obtain ⟨hcfg, hpc', hses, hper, htr, henv⟩ := id hl
  rw [controllerStep_of_dispBegin hpc, controllerStep_of_dispBegin (hpc' ▸ hpc)]
  simp only [payload, ← hcfg, ← hline, ← hlo, ← hlen]
  refine sameOutcome_andThen_self _ fun p => ?_
  cases p with
  | nil => exact hl.sameSoFar_goto_wait
  | cons op text =>
    rw [exec_decode_cons op text hpc, exec_decode_cons op text (hpc' ▸ hpc)]
    refine ⟨⟨hcfg, rfl, by simp [begun, hses], hper, by simp [begun, htr, hses], henv⟩, ?_⟩
    exact (sameWritten_exec_iff (k := 0) rfl).mpr
      ⟨⟨rfl, rfl, by simp [begun, hcfg], rfl⟩, fun j _ hj => absurd hj (Nat.not_lt_zero j)⟩

/-- How many readings a transaction writes. -/
def HalReq.reads : HalReq → Nat
  | .adcRead _ => 1
  | _ => 0

theorem readIndex_succ {plan : List HalReq} {q : HalReq} (hq : plan[k]? = some q) :
    readIndex plan (k + 1) = readIndex plan k + q.reads := by
  simp only [readIndex, List.take_add_one, hq, List.countP_append]
  cases q <;> rfl

/-- What a transaction leaves in both runs: one effect on the live state, and the first `n` readings. -/
def SameTransacted (n : Nat) (s t u v : State) : Prop :=
  SameLive u v ∧ SameReadings n u v ∧ u.cfg = s.cfg ∧ u.work = s.work ∧ v.work = t.work

/-- An `adcRead` makes one more register agree. -/
theorem sameTransacted_completeHal (hl : SameLive s t) (hr : SameReadings n s t) (q : HalReq) :
    SameOutcome (SameTransacted (n + q.reads) s t) (completeHal q n s) (completeHal q n t) := by
  obtain ⟨hcfg, hpc, hses, hper, htr, henv⟩ := hl
  have hread : nextReading s = nextReading t := nextReading_congr henv hcfg
  cases q with
  | adcRead ch =>
    simp only [completeHal, ← hper]
    split
    · split
      · refine ⟨⟨hcfg, hpc, hses, hper, by simp [htr, hread], by simp [henv]⟩, fun j hj hjn => ?_, rfl, rfl, rfl⟩
        simp only [storeReading_rd, Vector.getElem_setIfInBounds, hread]
        split
        · rfl
        · exact hr j hj (by simp only [HalReq.reads] at hjn; omega)
      · rfl
    · rfl
  | _ => exact ⟨⟨hcfg, hpc, by simp [hses], by simp [hper], by simp [htr], henv⟩, hr, rfl, rfl, rfl⟩

theorem sameSoFar_issueEntry {q : HalReq} (hl : SameLive s t) (hw : SameCommand s t)
    (hr : SameReadings (readIndex s.work.plan k) s t) (hq : s.work.plan[k]? = some q) :
    SameOutcome SameSoFar (issueEntry k q s) (issueEntry k q t) := by
  obtain ⟨hop, hargs, hplan, hown⟩ := hw
  unfold issueEntry
  rw [← hplan]
  refine (sameTransacted_completeHal hl hr q).andThen fun u v h => ?_
  obtain ⟨⟨hcfg, -, hlive⟩, hr, hc, hu, hv⟩ := h
  rw [← readIndex_succ hq, ← hu] at hr
  refine ⟨⟨hcfg, rfl, hlive⟩, (sameWritten_exec_iff rfl).mpr ⟨⟨?_, ?_, ?_, ?_⟩, hr⟩⟩
  · simp [hu, hv, hop]
  · simp [hu, hv, hargs]
  · simp [hu, hv, hplan]
  · simpa [currentInstr, hc, hu] using hown

/-- Only the data of `a` depends on RD (R83). -/
theorem dataOf_congr {c : Config} {rd rd' : Vector Nat 5} {i : Instr} (h : ∀ args, i = .a args → rd = rd') :
    dataOf c rd i = dataOf c rd' i := by
  cases i with
  | a args => rw [h args rfl]
  | _ => rfl

/-- Past the end of `a`'s plan all five registers agree (R144). -/
theorem SameReadings.rd_eq {c : Config} {args : List Token} (hplan : s.work.plan = planOf c (.a args))
    (hdone : s.work.plan[k]? = none) (hr : SameReadings (readIndex s.work.plan k) s t) : s.rd = t.rd := by
  have hfive : readIndex s.work.plan k = 5 := by
    rw [readIndex, List.take_of_length_le (List.getElem?_eq_none_iff.mp hdone), hplan]
    rfl
  exact Vector.ext fun j hj => hr j hj (hfive ▸ hj)

/-- When PLAN is done both runs assemble one reply. -/
theorem SameCommand.currentReply_eq (hw : SameCommand s t) (hcfg : s.cfg = t.cfg)
    (hr : SameReadings (readIndex s.work.plan k) s t) (hdone : s.work.plan[k]? = none) :
    currentReply s = currentReply t := by
  obtain ⟨hop, hargs, -, hown⟩ := hw
  have hi : currentInstr s = currentInstr t := by simp only [currentInstr, hop, hargs]
  rw [currentReply, currentReply, ← hop, ← hcfg, ← hi]
  exact congrArg _ (dataOf_congr fun args ha => SameReadings.rd_eq (ha ▸ hown) hdone hr)

theorem sameSoFar_assembly (hl : SameLive s t) (hpc : s.pc = .exec k) (hw : SameCommand s t)
    (hr : SameReadings (readIndex s.work.plan k) s t) (hq : s.work.plan[k]? = none) :
    SameOutcome SameSoFar (controllerStep s) (controllerStep t) := by
  obtain ⟨hcfg, hpc', hlive⟩ := hl
  obtain ⟨-, -, hplan, -⟩ := id hw
  rw [controllerStep_of_assembly hpc hq, controllerStep_of_assembly (hpc' ▸ hpc) (hplan ▸ hq),
    ← hw.currentReply_eq hcfg hr hq, ← hcfg]
  by_cases hfit : 0 + (currentReply s).length ≤ (outSpace s.cfg).size
  · rw [writeBytes_eq_next.mpr ⟨hfit, rfl⟩, writeBytes_eq_next.mpr ⟨hfit, rfl⟩]
    refine ⟨⟨rfl, rfl, hlive⟩, SameReply.sameWritten ⟨rfl, fun a ha => ?_⟩ ?_⟩
    · have hin : 0 ≤ a ∧ a < 0 + (currentReply s).length := ⟨Nat.zero_le a, by simpa using ha⟩
      rw [byte?_setBytes, byte?_setBytes, if_pos hin, if_pos hin]
    · cases hp : s.cfg.replyBeforeIndOff <;> simp [afterAssembly, hp]
  · rw [writeBytes_of_size_lt (Nat.not_le.mp hfit), writeBytes_of_size_lt (Nat.not_le.mp hfit)]
    rfl

theorem sameSoFar_emitReply (hl : SameLive s t) (hw : SameReply s t) :
    SameOutcome SameSoFar (emitReply s) (emitReply t) := by
  obtain ⟨hcfg, -, hses, hper, htr, henv⟩ := hl
  obtain ⟨hlen, hbytes⟩ := id hw
  have hread : readBytes (outSpace s.cfg) s.out 0 s.outLen = readBytes (outSpace t.cfg) t.out 0 t.outLen := by
    rw [← hcfg, ← hlen]
    exact readBytes_congr fun a _ ha => hbytes a (by omega)
  rw [emitReply, emitReply, hread]
  refine sameOutcome_andThen_self _ fun bs => ?_
  refine ⟨⟨hcfg, by simp [hcfg], hses, hper, by simp [htr], henv⟩, SameReply.sameWritten hw ?_⟩
  cases hp : s.cfg.replyBeforeIndOff <;> simp [afterReply, hp]

theorem sameSoFar_endDispatch (hl : SameLive s t) (hw : SameReply s t) :
    SameSoFar (endDispatch s) (endDispatch t) := by
  obtain ⟨hcfg, -, hses, hper, htr, henv⟩ := hl
  refine ⟨?_, SameReply.sameWritten (by simpa [endDispatch, SameReply] using hw) ?_⟩
  · simp [endDispatch, SameLive, hcfg, hses, hper, htr, henv]
  · cases hp : s.cfg.replyBeforeIndOff <;> simp [endDispatch, afterDispEnd, hp]

/-! ### One step and a whole run -/

theorem sameSoFar_controllerStep (h : SameSoFar s t) :
    SameOutcome SameSoFar (controllerStep s) (controllerStep t) := by
  obtain ⟨hl, hw⟩ := h
  obtain ⟨-, hpc', -⟩ := id hl
  cases hpc : s.pc with
  | boot0 | boot1 | boot2 =>
    simp only [controllerStep, ← hpc', hpc]
    exact sameSoFar_bootStep hl (by simp)
  | wait =>
    rw [controllerStep_of_wait hpc, controllerStep_of_wait (hpc' ▸ hpc)]
    exact sameSoFar_waitStep hl hpc
  | extract =>
    obtain ⟨hline, hlen⟩ : s.line = t.line ∧ s.lineLen = t.lineLen := by simpa only [SameWritten, hpc] using hw
    rw [controllerStep_of_extract hpc, controllerStep_of_extract (hpc' ▸ hpc)]
    exact (sameExtracted_extractFrame hl hline hlen).andThen fun u v => SameExtracted.afterExtract
  | dispBegin =>
    obtain ⟨hline, hlo, hlen⟩ : s.line = t.line ∧ s.work.payLo = t.work.payLo ∧ s.work.payLen = t.work.payLen := by
      simpa only [SameWritten, hpc] using hw
    exact sameSoFar_dispBegin hl hpc hline hlo hlen
  | exec k =>
    obtain ⟨hc, hr⟩ := (sameWritten_exec_iff hpc).mp hw
    obtain ⟨-, -, hplan, -⟩ := id hc
    cases hq : s.work.plan[k]? with
    | some q =>
      rw [controllerStep_of_entry hpc hq, controllerStep_of_entry (hpc' ▸ hpc) (hplan ▸ hq)]
      exact sameSoFar_issueEntry hl hc hr hq
    | none => exact sameSoFar_assembly hl hpc hc hr hq
  | reply =>
    rw [controllerStep_of_reply hpc, controllerStep_of_reply (hpc' ▸ hpc)]
    exact sameSoFar_emitReply hl (by simpa only [SameWritten, hpc] using hw)
  | dispEnd =>
    rw [controllerStep_of_dispEnd hpc, controllerStep_of_dispEnd (hpc' ▸ hpc)]
    exact sameSoFar_endDispatch hl (by simpa only [SameWritten, hpc] using hw)

/-- Both runs wait for a transaction, or neither does (R20). -/
theorem SameSoFar.issuesTransaction_eq (h : SameSoFar s t) : issuesTransaction s = issuesTransaction t := by
  obtain ⟨⟨-, hpc', hses, -⟩, hw⟩ := h
  unfold issuesTransaction
  rw [← hpc', ← hses]
  cases hpc : s.pc with
  | exec k =>
    obtain ⟨⟨-, -, hplan, -⟩, -⟩ := (sameWritten_exec_iff hpc).mp hw
    simp only [hplan]
  | _ => rfl

theorem SameSoFar.withSchedule (h : SameSoFar s t) (moves : List EnvMove) :
    SameSoFar (withSchedule moves s) (withSchedule moves t) := by
  obtain ⟨⟨hcfg, hpc, hses, hper, htr, henv⟩, hw⟩ := h
  exact ⟨⟨hcfg, hpc, hses, hper, htr, by simp [henv]⟩, hw⟩

theorem sameOutcome_ifConfigured {rel : State → State → Prop} {x y : Result State} (c : Config)
    (h : SameOutcome rel x y) : SameOutcome rel (ifConfigured c x) (ifConfigured c y) := by
  unfold ifConfigured
  split
  · exact h
  · rfl

theorem sameSoFar_step (h : SameSoFar s t) : SameOutcome SameSoFar (step s) (step t) := by
  obtain ⟨⟨hcfg, -, -, -, -, henv⟩, -⟩ := id h
  unfold step scheduledStep
  rw [← henv, ← hcfg]
  split <;> refine sameOutcome_ifConfigured _ ?_
  · exact sameSoFar_controllerStep h
  · exact sameSoFar_controllerStep (h.withSchedule _)
  · rw [← h.issuesTransaction_eq]
    split
    · exact h
    · exact sameSoFar_controllerStep h
  · exact ⟨⟨hcfg, rfl, rfl, rfl, rfl, by simp [henv]⟩, trivial⟩

theorem sameSoFar_run (h : SameSoFar s t) (n : Nat) : SameOutcome SameSoFar (run n s) (run n t) := by
  induction n generalizing s t with
  | zero => exact h
  | succ n ih => exact (sameSoFar_step h).andThen fun _ _ => ih

end TwoRuns

/-- Settles O58: waiting states that agree on the live state agree so far, every step keeps that, and it implies
agreement on the live state. -/
theorem earlierCyclesLeaveNoTrace : Obligations.EarlierCyclesLeaveNoTrace := by
  intro n s t hpc hl
  have hstart : SameSoFar s t := ⟨hl, by simp only [SameWritten, hpc]⟩
  exact (sameSoFar_run hstart n).mono fun _ _ h => h.1

end Sys2Proof.Machine

/-! What is decoded and answered stays where it is (spec/20_memory.md R62, spec/70_reset_and_hazards.md R230, O51): only
WAIT writes LINE_LEN, only WAIT and EXTRACT write LINE, only EXTRACT writes the payload view. -/

namespace Sys2Proof.Machine

/-- A row outside WAIT and EXTRACT keeps LINE, its length and the payload view. -/
theorem ControllerRow.payload_kept {s t : State} (h : ControllerRow s t) (hw : s.pc ≠ .wait) (hx : s.pc ≠ .extract) :
    t.line = s.line ∧ t.lineLen = s.lineLen ∧ t.work.payLo = s.work.payLo ∧ t.work.payLen = s.work.payLen := by
  cases h with
  | silentHost hpc | takeLine hpc => exact absurd hpc hw
  | dropLine hpc | enterDispatch hpc => exact absurd hpc hx
  | boot0 | boot1 | boot2 | emptyPayload | beginCommand | assemble | transmit => exact ⟨rfl, rfl, rfl, rfl⟩
  | transaction _ _ hu =>
    obtain ⟨-, -, -, hline, hlineLen, -, -, hwork, -⟩ := completeHal_frame hu
    simp [hline, hlineLen, hwork]
  | endDispatch => simp [Machine.endDispatch]

/-- Settles O51: a hung step changes nothing, and the rows that write LINE or the payload view start in WAIT or EXTRACT. -/
theorem payloadStaysDuringDispatch : Obligations.PayloadStaysDuringDispatch := by
  intro s t h hr hw hx
  obtain rfl | ⟨moves, hrow⟩ := step_row_of_not_reset h hr
  · exact ⟨rfl, rfl, rfl, rfl⟩
  · exact hrow.payload_kept hw hx

end Sys2Proof.Machine

/-! The encoding of commands (spec/30_encoding.md R72 to R79, spec/41_dispatcher.md R125): the tokenizer undoes the
encoder's argument text, the opcode map is one equation per table row, and a line's scan finds the frame it was built
from. O1 to O5. -/

namespace Sys2Proof

open Machine

/-! ### The tokenizer -/

section Tokenizer

variable {t : Token} {ts : List Token} {b : Byte}

/-- R125: a run of non-separators is collected whole. -/
theorem tokensFrom_append_run {run : Bytes} (h : ∀ b ∈ run, isSeparator b = false) (cur rest : Bytes) :
    tokensFrom cur (run ++ rest) = tokensFrom (cur ++ run) rest := by
  induction run generalizing cur with
  | nil => simp
  | cons b more ih =>
    obtain ⟨hb, hmore⟩ := List.forall_mem_cons.mp h
    simp [tokensFrom, hb, ih hmore]

theorem tokenOk_iff : tokenOk t = true ↔ t ≠ [] ∧ ∀ b ∈ t, isSeparator b = false ∧ isPayloadByte b = true := by
  simp [tokenOk]

theorem tokensOk_cons : tokensOk (t :: ts) = (tokenOk t && tokensOk ts) := rfl

/-- A token followed by a separator is the first token (R125). -/
theorem tokens_append_separator (ht : tokenOk t = true) (hb : isSeparator b = true) (rest : Bytes) :
    tokens (t ++ b :: rest) = t :: tokens rest := by
  obtain ⟨hne, hrun⟩ := tokenOk_iff.mp ht
  rw [tokens, tokensFrom_append_run fun b hm => (hrun b hm).1]
  simp [tokensFrom, hb, hne, tokens]

/-- A token alone is the only token (R125). -/
theorem tokens_of_tokenOk (ht : tokenOk t = true) : tokens t = [t] := by
  obtain ⟨hne, hrun⟩ := tokenOk_iff.mp ht
  have hscan := tokensFrom_append_run (fun b hm => (hrun b hm).1) [] []
  rw [List.append_nil, List.nil_append] at hscan
  rw [tokens, hscan, tokensFrom, if_neg hne]

/-- R87, R125: the tokenizer gives back the tokens that stand in an argument text. -/
theorem tokens_encodeArgs (h : tokensOk ts = true) : tokens (encodeArgs ts) = ts := by
  induction ts with
  | nil => rfl
  | cons t rest ih =>
    obtain ⟨ht, hrest⟩ := Bool.and_eq_true_iff.mp h
    cases rest with
    | nil => exact tokens_of_tokenOk ht
    | cons u more => rw [encodeArgs, tokens_append_separator ht rfl, ih hrest]

/-- The scan makes tokens of a payload out of payload bytes: `cur`, unless empty, is such a token already. -/
theorem tokensOk_tokensFrom {cur text : Bytes} (hcur : cur = [] ∨ tokenOk cur = true)
    (htext : ∀ b ∈ text, isPayloadByte b = true) : tokensOk (tokensFrom cur text) = true := by
  induction text generalizing cur with
  | nil =>
    obtain rfl | hcur := hcur
    · rfl
    · simp [tokensFrom, hcur, (tokenOk_iff.mp hcur).1, tokensOk]
  | cons b rest ih =>
    obtain ⟨hb, hrest⟩ := List.forall_mem_cons.mp htext
    have hnext : tokensOk (tokensFrom [] rest) = true := ih (.inl rfl) hrest
    cases hsep : isSeparator b with
    | true =>
      obtain rfl | hcur := hcur
      · simpa [tokensFrom, hsep] using hnext
      · simp [tokensFrom, hsep, (tokenOk_iff.mp hcur).1, tokensOk_cons, hcur, hnext]
    | false =>
      have hrun : tokenOk (cur ++ [b]) = true := by
        refine tokenOk_iff.mpr ⟨by simp, List.forall_mem_append.mpr ⟨?_, List.forall_mem_singleton.mpr ⟨hsep, hb⟩⟩⟩
        obtain rfl | hcur := hcur
        · nofun
        · exact (tokenOk_iff.mp hcur).2
      simpa [tokensFrom, hsep] using ih (.inr hrun) hrest

theorem tokensOk_tokens {text : Bytes} (h : ∀ b ∈ text, isPayloadByte b = true) : tokensOk (tokens text) = true :=
  tokensOk_tokensFrom (.inl rfl) h

end Tokenizer

/-! ### The opcode map, one equation per table row (R79, R141 to R148) -/

section OpcodeMap

variable (value level flag : Token) (args rest : List Token)

@[simp] theorem classify_chV : classify chV args = .v args := rfl

@[simp] theorem classify_chL_nil : classify chL [] = .lNoValue := rfl

@[simp] theorem classify_chL_cons : classify chL (value :: rest) = .l value rest := rfl

@[simp] theorem classify_chA : classify chA args = .a args := rfl

@[simp] theorem classify_chW_nil : classify chW [] = .wMissing := rfl

@[simp] theorem classify_chW_level : classify chW [level] = .w level none [] := rfl

@[simp] theorem classify_chW_flag : classify chW (level :: flag :: rest) =
    if truth (num flag) then .w level (some flag) rest else .wOff level flag rest := rfl

theorem classify_of_unknown {op : Byte} (hv : op ≠ chV) (hl : op ≠ chL) (ha : op ≠ chA) (hw : op ≠ chW) :
    classify op args = .unknown op args := by
  simp only [classify, if_neg hv, if_neg hl, if_neg ha, if_neg hw]

/-- R130: the flag's truth value. -/
theorem truth_eq_true_iff {v : Int} : truth v = true ↔ v ≠ 0 := by simp [truth]

/-- R72, R125: the opcode map gives a well-formed instruction exactly on the opcodes and tokens of a payload. -/
theorem wellFormed_classify (op : Byte) : (classify op args).wellFormed = (isPayloadByte op && tokensOk args) := by
  by_cases hv : op = chV
  · subst hv; rfl
  by_cases hl : op = chL
  · subst hl; cases args <;> rfl
  by_cases ha : op = chA
  · subst ha; rfl
  by_cases hw : op = chW
  · subst hw
    match args with
    | [] => rfl
    | [level] => rfl
    | level :: flag :: rest =>
      have hop : isPayloadByte chW = true := rfl
      cases ht : truth (num flag) <;> simp [ht, Instr.wellFormed, tokensOk_cons, hop, Bool.and_assoc]
  · simp [classify_of_unknown args hv hl ha hw, Instr.wellFormed, unknownOpOk, bne_iff_ne.mpr hv, bne_iff_ne.mpr hl,
      bne_iff_ne.mpr ha, bne_iff_ne.mpr hw]

end OpcodeMap

section RoundTrip

variable {i : Instr} {op : Byte} {args : List Token}

theorem fields_eq_none_iff : i.fields = none ↔ i = .nopEmpty := by
  cases i with
  | w level flag rest => cases flag <;> simp [Instr.fields]
  | _ => simp [Instr.fields]

/-- R79, R132: opcode byte and tokens of a well-formed instruction select it again. -/
theorem classify_of_fields (h : i.wellFormed = true) (hf : i.fields = some (op, args)) : classify op args = i := by
  cases i with
  | nopEmpty => cases hf
  | v | l | lNoValue | a | wMissing => cases hf; rfl
  | w level flag rest =>
    cases flag with
    | none =>
      obtain ⟨-, hrest⟩ := Bool.and_eq_true_iff.mp h
      obtain rfl := List.isEmpty_iff.mp hrest
      cases hf; rfl
    | some flag =>
      simp only [Instr.wellFormed, Bool.and_eq_true] at h
      cases hf; simp [h]
  | wOff level flag rest =>
    simp only [Instr.wellFormed, Bool.and_eq_true, Bool.not_eq_true'] at h
    cases hf; simp [h]
  | unknown =>
    simp only [Instr.wellFormed, unknownOpOk, Bool.and_eq_true, bne_iff_ne] at h
    obtain ⟨⟨⟨⟨⟨hv, hl⟩, ha⟩, hw⟩, -⟩, -⟩ := h
    cases hf; exact classify_of_unknown _ hv hl ha hw

/-- R72: opcode byte and tokens of a well-formed instruction are those of a payload. -/
theorem fields_payload (h : i.wellFormed = true) (hf : i.fields = some (op, args)) :
    isPayloadByte op = true ∧ tokensOk args = true := by
  rw [← classify_of_fields h hf, wellFormed_classify] at h
  exact Bool.and_eq_true_iff.mp h

theorem encode_of_fields (hf : i.fields = some (op, args)) : encode i = op :: encodeArgs args := by
  simp only [encode, hf]

/-- R75, R78, R87: decoding an encoded instruction. -/
theorem decode_encode (h : i.wellFormed = true) : decode (encode i) = i := by
  cases hf : i.fields with
  | none => obtain rfl := fields_eq_none_iff.mp hf; rfl
  | some f =>
    obtain ⟨op, args⟩ := f
    obtain ⟨-, hargs⟩ := fields_payload h hf
    rw [encode_of_fields hf, decode, tokens_encodeArgs hargs, classify_of_fields h hf]

/-- R72: a well-formed instruction is encoded to a payload a frame can carry. -/
theorem isPayloadByte_of_mem_encode (h : i.wellFormed = true) : ∀ b ∈ encode i, isPayloadByte b = true := by
  cases hf : i.fields with
  | none => obtain rfl := fields_eq_none_iff.mp hf; nofun
  | some f =>
    obtain ⟨op, args⟩ := f
    obtain ⟨hop, hargs⟩ := fields_payload h hf
    rw [encode_of_fields hf]
    exact Laws.EncodeClean.payloadByte_of_fields hop hargs

end RoundTrip

/-- Settles O1: the tokenizer undoes the argument text, and opcode and tokens select the instruction again. -/
theorem decodeInvertsEncode : Obligations.DecodeInvertsEncode := fun _ => decode_encode

/-- Settles O3: the opcode map's rows on literal payloads, evaluated. -/
theorem writtenPayloadsDecode : Obligations.WrittenPayloadsDecode := by
  unfold Obligations.WrittenPayloadsDecode; decide

/-- Settles O4: the opcode map lands in the well-formed instructions when opcode and tokens are those of a payload, and
the tokenizer makes such tokens. -/
theorem decodedPayloadIsWellFormed : Obligations.DecodedPayloadIsWellFormed := by
  intro p hp
  cases p with
  | nil => rfl
  | cons op text =>
    obtain ⟨hop, htext⟩ := List.forall_mem_cons.mp hp
    rw [decode, wellFormed_classify, hop, tokensOk_tokens htext, Bool.and_self]

/-- Settles O5: each clause is the opcode map's equation for its row. -/
theorem opcodeMapSelectsByFirstByte : Obligations.OpcodeMapSelectsByFirstByte := by
  refine ⟨rfl, fun op text => ⟨?v, ?lNoValue, ?l, ?a, ?wMissing, ?wLevel, ?wOn, ?wOff, ?unknown⟩⟩
  case v => rintro rfl; exact classify_chV _
  case lNoValue => rintro rfl ht; rw [decode, ht]; exact classify_chL_nil
  case l => rintro value rest rfl ht; rw [decode, ht]; exact classify_chL_cons value rest
  case a => rintro rfl; exact classify_chA _
  case wMissing => rintro rfl ht; rw [decode, ht]; exact classify_chW_nil
  case wLevel => rintro level rfl ht; rw [decode, ht]; exact classify_chW_level level
  case wOn =>
    rintro level flag rest rfl ht hflag
    rw [decode, ht]
    exact (classify_chW_flag level flag rest).trans (if_pos (truth_eq_true_iff.mpr hflag))
  case wOff =>
    rintro level flag rest rfl ht hflag
    rw [decode, ht]
    exact (classify_chW_flag level flag rest).trans (if_neg fun h => truth_eq_true_iff.mp h hflag)
  case unknown => exact classify_of_unknown (tokens text)

/-! ### The frame in a line -/

/-- A search finds the first byte it looks for. -/
theorem findIdx?_append_cons {b : Byte} {before : Bytes} (h : b ∉ before) (after : Bytes) :
    (before ++ b :: after).findIdx? (fun c => c == b) = some before.length := by
  have hnone : before.findIdx? (fun c => c == b) = none := by
    simpa [List.findIdx?_eq_none_iff] using fun c hc (he : c = b) => h (he ▸ hc)
  simp [List.findIdx?_append, List.findIdx?_cons, hnone]

/-- R101: bytes other than NUL belong to the window. -/
theorem window_append {front : Bytes} (h : chNul ∉ front) (rest : Bytes) :
    window (front ++ rest) = front ++ window rest :=
  List.takeWhile_append_of_pos fun _ hb => bne_iff_ne.mpr fun he => h (he ▸ hb)

/-- R102 to R104, R107: the scan finds the first frame, whose payload holds no end marker. -/
theorem scanFrame_append_frame {nodeId : Byte} {before p : Bytes} (hs : chSlash ∉ before) (hn : nodeId ≠ chBang)
    (hp : chBang ∉ p) (after : Bytes) :
    scanFrame nodeId (before ++ chSlash :: nodeId :: (p ++ chBang :: after)) =
      .addressed before.length (before.length + 1 + (p.length + 1)) := by
  have hend : (nodeId :: (p ++ chBang :: after)).findIdx? (fun b => b == chBang) = some (p.length + 1) :=
    findIdx?_append_cons (before := nodeId :: p) (by simp [hn.symm, hp]) after
  simp [scanFrame, findIdx?_append_cons hs, List.drop_length_add_append, hend]

/-- R72, R109: the payload of a line that holds a frame for this node. -/
theorem framePayload_append_frame {nodeId : Byte} {before p : Bytes} (hn : nodeIdOk nodeId = true)
    (hs : chSlash ∉ before) (hz : chNul ∉ before) (hp : ∀ b ∈ p, isPayloadByte b = true) (after : Bytes) :
    framePayload nodeId (before ++ chSlash :: nodeId :: (p ++ chBang :: after)) = .ok p := by
  have hnul : nodeId ≠ chNul := by rintro rfl; cases hn
  have hbang : nodeId ≠ chBang := by rintro rfl; cases hn
  have hpNul : chNul ∉ p := fun hm => nomatch hp _ hm
  have hpBang : chBang ∉ p := fun hm => nomatch hp _ hm
  have hfront : chNul ∉ before ++ chSlash :: nodeId :: (p ++ [chBang]) := by
    simp [hz, hnul.symm, hpNul, show chNul ≠ chSlash by decide, show chNul ≠ chBang by decide]
  have hwin : window (before ++ chSlash :: nodeId :: (p ++ chBang :: after)) =
      before ++ chSlash :: nodeId :: (p ++ chBang :: window after) := by
    simpa using window_append hfront after
  rw [framePayload, hwin, scanFrame_append_frame hs hbang hpBang]
  have hlen : before.length + 1 + (p.length + 1) - before.length - 2 = p.length := by omega
  simp [hlen, List.drop_length_add_append]

/-- Settles O2: the scan finds the frame, its payload is the encoded instruction, and that decodes. -/
theorem framedLineCarriesInstruction : Obligations.FramedLineCarriesInstruction := by
  intro nodeId i before after hn hi hs hz
  have hline : before ++ encodeFrame nodeId i ++ after =
      before ++ chSlash :: nodeId :: (encode i ++ chBang :: after) := by simp [encodeFrame]
  rw [hline, decodeLine, framePayload_append_frame hn hs hz (isPayloadByte_of_mem_encode hi)]
  simp only [decode_encode hi]

end Sys2Proof

/-! Where the events of the two line channels come from (spec/10_state.md R35), and the form of every reply transmitted
(spec/30_encoding.md R82, O57). -/

namespace Sys2Proof.Machine

/-- An event of the line input or the reply output; the others are HAL transactions. -/
def Event.isLine : Event → Bool
  | .readLine _ => true
  | .writeLine _ => true
  | _ => false

section LineEvents

variable {s t : State} {e : Event}

/-- A HAL transaction records no line (R177). -/
theorem completeHal_event_not_line {q : HalReq} {i : Nat} (h : completeHal q i s = .next t) :
    ∃ e, t.trace = s.trace ++ [e] ∧ e.isLine = false := by
  cases q with
  | adcRead ch =>
    obtain ⟨-, -, -, rfl⟩ := completeHal_adcRead_eq_next.mp h
    exact ⟨_, storeReading_trace s ch i, rfl⟩
  | referenceInit | referenceClose | adcInit | adcClose | dacSetLevel | referenceOutputEnable | indicatorSet =>
    cases h; exact ⟨_, rfl, rfl⟩

/-- An automatic indicator transaction records no line (R122, R123). -/
theorem not_line_of_mem_autoIndicate {override b : Bool} (he : e ∈ if override then [] else [Event.indSet b]) :
    e.isLine = false := by
  cases override with
  | true => cases he
  | false => obtain rfl := List.mem_singleton.mp he; rfl

/-- A line is read by WAIT's row and transmitted by REPLY's, which transmits OUT (R121, R224). -/
theorem ControllerRow.line_event (h : ControllerRow s t) (ht : t.trace = s.trace ++ [e]) (he : e.isLine = true) :
    (s.pc = .wait ∧ ∃ b, e = .readLine b)
      ∨ s.pc = .reply ∧ ∃ bs, e = .writeLine bs ∧ readBytes (outSpace s.cfg) s.out 0 s.outLen = .next bs := by
  have other {u : State} {new : List Event} (hu : u.trace = s.trace ++ new) (hut : u.trace = t.trace)
      (hnew : ∀ e ∈ new, e.isLine = false) : False := by
    obtain rfl := List.append_cancel_left (hu.symm.trans (hut.trans ht))
    exact absurd he (by simp [hnew e (List.mem_singleton_self e)])
  cases h with
  | takeLine hpc => cases List.append_cancel_left ht; exact .inl ⟨hpc, _, rfl⟩
  | transmit hpc hb => cases List.append_cancel_left ht; exact .inr ⟨hpc, _, rfl, hb⟩
  | boot0 | boot1 | boot2 => cases List.append_cancel_left ht; cases he
  | silentHost | emptyPayload | assemble => exact (other (u := s) (List.append_nil _).symm rfl nofun).elim
  | dropLine _ hx | enterDispatch _ hx =>
    obtain ⟨m, wk, rfl, -⟩ := extractFrame_frame hx
    exact (other (u := s) (List.append_nil _).symm rfl nofun).elim
  | beginCommand => exact (other rfl rfl fun _ => not_line_of_mem_autoIndicate).elim
  | transaction _ _ hu =>
    obtain ⟨e', htrace, hline⟩ := completeHal_event_not_line hu
    exact (other htrace rfl (List.forall_mem_singleton.mpr hline)).elim
  | endDispatch =>
    exact (other (autoIndicate_trace s false) rfl fun _ => not_line_of_mem_autoIndicate).elim

/-- R82, R133: under the invariant what REPLY reads from OUT is the reply of the command dispatched. -/
theorem readBytes_out_eq_currentReply (hi : MachineInv s) (hpc : s.pc = .reply) :
    readBytes (outSpace s.cfg) s.out 0 s.outLen = .next (currentReply s) := by
  obtain ⟨-, ⟨-, -, -, -, -, hout⟩, -, -, hctl⟩ := hi
  obtain ⟨⟨hholds, hlen⟩, -⟩ := (controlInv_reply_iff hpc).mp hctl
  have hlen : s.outLen = (currentReply s).length := hlen.trans (replyBytes_length _ _).symm
  rw [hlen] at hout ⊢
  exact readBytes_of_holds (by simpa using hout) hholds

end LineEvents

/-- Settles O57: only REPLY's row transmits, and it transmits the reply that the invariant says stands in OUT. -/
theorem everyReplyHasTheFormat : Obligations.EveryReplyHasTheFormat := by
  intro s t b hi h ht
  obtain ⟨-, rfl | ⟨moves, hrow⟩ | ⟨moves, -, rfl⟩⟩ := step_row h
  · simp at ht
  · obtain ⟨-, _, hb⟩ | ⟨hpc, bs, hb, hread⟩ := hrow.line_event ht rfl
    · cases hb
    · cases hb
      cases hread.symm.trans (readBytes_out_eq_currentReply (s := withSchedule moves s) hi hpc)
      rfl
  · simp [State.reset] at ht

end Sys2Proof.Machine

/-! The scan of a line (spec/40_frame_extractor.md R101 to R107, R112): what its two searches find, said as places in
the window, an `↔` per result, and which lines have no payload. O11, O12, O16. -/

namespace Sys2Proof

open Machine

/-! ### The window and the markers -/

/-- Settles O12: what follows the longest front without NUL begins with NUL. -/
theorem windowEndsAtFirstNul : Obligations.WindowEndsAtFirstNul := by
  intro line
  refine ⟨line.dropWhile (fun b => b != chNul), List.takeWhile_append_dropWhile.symm, fun hm => ?_, ?_⟩
  · exact absurd (List.mem_takeWhile_imp hm) (by decide)
  · cases hrest : line.dropWhile (fun b => b != chNul) with
    | nil => exact .inl rfl
    | cons c more =>
      have hc := List.head?_dropWhile_not (fun b => b != chNul) line
      rw [hrest] at hc
      obtain rfl : c = chNul := by simpa using hc
      exact .inr ⟨more, rfl⟩

section Markers

variable {b nodeId : Byte} {win bs : Bytes} {s e d i : Nat}

/-- R101: the window's bytes stand in the line at the same places. -/
theorem getElem?_of_getElem?_window (h : (window bs)[i]? = some b) : bs[i]? = some b := by
  obtain ⟨hi, rfl⟩ := List.getElem?_eq_some_iff.mp h
  exact List.prefix_iff_getElem?.mp (List.takeWhile_prefix _) i hi

/-- R102: a search of the whole window finds the first place of its byte. -/
theorem findIdx?_beq_eq_some_iff :
    win.findIdx? (fun c => c == b) = some s ↔ win[s]? = some b ∧ ∀ i < s, win[i]? ≠ some b := by
  rw [List.findIdx?_eq_some_iff_getElem]
  constructor
  · rintro ⟨hs, hb, hbefore⟩
    exact ⟨List.getElem?_eq_some_iff.mpr ⟨hs, beq_iff_eq.mp hb⟩, fun i hi h =>
      hbefore i hi (beq_iff_eq.mpr (List.getElem?_eq_some_iff.mp h).2)⟩
  · rintro ⟨h, hbefore⟩
    obtain ⟨hs, hb⟩ := List.getElem?_eq_some_iff.mp h
    exact ⟨hs, beq_iff_eq.mpr hb, fun i hi h =>
      hbefore i hi (List.getElem?_eq_some_iff.mpr ⟨_, beq_iff_eq.mp h⟩)⟩

theorem findIdx?_beq_eq_none_iff : win.findIdx? (fun c => c == b) = none ↔ b ∉ win := by
  rw [List.findIdx?_eq_none_iff]
  exact ⟨fun h hm => by simpa using h b hm, fun h c hc => beq_eq_false_iff_ne.mpr fun he => h (he ▸ hc)⟩

/-- The places past `s` are those of the rest of the window. -/
theorem forall_drop_getElem?_ne_iff {n : Nat} :
    (∀ i < n, (win.drop (s + 1))[i]? ≠ some b) ↔ ∀ j, s < j → j < s + 1 + n → win[j]? ≠ some b := by
  simp only [List.getElem?_drop]
  refine ⟨fun h j hs hj => ?_, fun h i hi => h _ (by omega) (by omega)⟩
  have hn := h (j - (s + 1)) (by omega)
  rwa [Nat.add_sub_cancel' hs] at hn

/-- R104: a search past `s` finds the first place of its byte after `s`. -/
theorem findIdx?_drop_beq_eq_some_iff :
    (win.drop (s + 1)).findIdx? (fun c => c == b) = some d ↔
      win[s + 1 + d]? = some b ∧ ∀ j, s < j → j < s + 1 + d → win[j]? ≠ some b := by
  rw [findIdx?_beq_eq_some_iff, List.getElem?_drop, forall_drop_getElem?_ne_iff]

/-- R105: a search past `s` finds nothing when its byte stands nowhere after `s`. -/
theorem findIdx?_drop_beq_eq_none_iff :
    (win.drop (s + 1)).findIdx? (fun c => c == b) = none ↔ ∀ j, s < j → win[j]? ≠ some b := by
  rw [findIdx?_beq_eq_none_iff, List.mem_iff_getElem?, not_exists]
  simp only [List.getElem?_drop]
  refine ⟨fun h j hj => ?_, fun h i => h _ (by omega)⟩
  have hn := h (j - (s + 1))
  rwa [Nat.add_sub_cancel' hj] at hn

/-- The start marker: the first `/` of the window (R102). -/
def StartsAt (win : Bytes) (s : Nat) : Prop := win[s]? = some chSlash ∧ ∀ i < s, win[i]? ≠ some chSlash

/-- Both markers: the first `/` of the window and the first `!` after it (R102, R104). -/
def FramedAt (win : Bytes) (s e : Nat) : Prop :=
  StartsAt win s ∧ s < e ∧ win[e]? = some chBang ∧ ∀ j, s < j → j < e → win[j]? ≠ some chBang

/-- What each result of the scan says of the window (R103, R105, R106). -/
inductive ScanRow (nodeId : Byte) (win : Bytes) : Scan → Prop
  | noStart (hs : chSlash ∉ win) : ScanRow nodeId win .noStart
  | noEnd {s : Nat} (hs : StartsAt win s) (he : ∀ j, s < j → win[j]? ≠ some chBang) : ScanRow nodeId win (.noEnd s)
  | notForMe {s e : Nat} (hf : FramedAt win s e) (ha : win[s + 1]? ≠ some nodeId) :
      ScanRow nodeId win (.notForMe s e)
  | addressed {s e : Nat} (hf : FramedAt win s e) (ha : win[s + 1]? = some nodeId) :
      ScanRow nodeId win (.addressed s e)

theorem scanFrame_row (nodeId : Byte) (win : Bytes) : ScanRow nodeId win (scanFrame nodeId win) := by
  cases hs : win.findIdx? (fun c => c == chSlash) with
  | none => simpa only [scanFrame, hs] using .noStart (findIdx?_beq_eq_none_iff.mp hs)
  | some s =>
    have hstart : StartsAt win s := findIdx?_beq_eq_some_iff.mp hs
    cases he : (win.drop (s + 1)).findIdx? (fun c => c == chBang) with
    | none => simpa only [scanFrame, hs, he] using .noEnd hstart (findIdx?_drop_beq_eq_none_iff.mp he)
    | some d =>
      have hf : FramedAt win s (s + 1 + d) := ⟨hstart, by omega, findIdx?_drop_beq_eq_some_iff.mp he⟩
      by_cases ha : win[s + 1]? = some nodeId
      · simpa only [scanFrame, hs, he, if_pos ha] using .addressed hf ha
      · simpa only [scanFrame, hs, he, if_neg ha] using .notForMe hf ha

theorem scanFrame_eq_noStart_iff : scanFrame nodeId win = .noStart ↔ chSlash ∉ win := by
  refine ⟨fun h => ?_, fun h => by simp only [scanFrame, findIdx?_beq_eq_none_iff.mpr h]⟩
  cases h ▸ scanFrame_row nodeId win with
  | noStart hs => exact hs

theorem scanFrame_eq_noEnd_iff :
    scanFrame nodeId win = .noEnd s ↔ StartsAt win s ∧ ∀ j, s < j → win[j]? ≠ some chBang := by
  refine ⟨fun h => ?_, fun ⟨hs, he⟩ => ?_⟩
  · cases h ▸ scanFrame_row nodeId win with
    | noEnd hs he => exact ⟨hs, he⟩
  · simp only [scanFrame, findIdx?_beq_eq_some_iff.mpr hs, findIdx?_drop_beq_eq_none_iff.mpr he]

/-- R106: between the markers the address byte decides. -/
theorem scanFrame_of_framedAt (hf : FramedAt win s e) :
    scanFrame nodeId win = if win[s + 1]? = some nodeId then .addressed s e else .notForMe s e := by
  obtain ⟨hs, hlt, he⟩ := hf
  obtain ⟨d, rfl⟩ : ∃ d, e = s + 1 + d := ⟨e - (s + 1), by omega⟩
  simp only [scanFrame, findIdx?_beq_eq_some_iff.mpr hs, findIdx?_drop_beq_eq_some_iff.mpr he]

theorem scanFrame_eq_addressed_iff :
    scanFrame nodeId win = .addressed s e ↔ FramedAt win s e ∧ win[s + 1]? = some nodeId := by
  refine ⟨fun h => ?_, fun ⟨hf, ha⟩ => (scanFrame_of_framedAt hf).trans (if_pos ha)⟩
  cases h ▸ scanFrame_row nodeId win with
  | addressed hf ha => exact ⟨hf, ha⟩

theorem scanFrame_eq_notForMe_iff :
    scanFrame nodeId win = .notForMe s e ↔ FramedAt win s e ∧ win[s + 1]? ≠ some nodeId := by
  refine ⟨fun h => ?_, fun ⟨hf, ha⟩ => (scanFrame_of_framedAt hf).trans (if_neg ha)⟩
  cases h ▸ scanFrame_row nodeId win with
  | notForMe hf ha => exact ⟨hf, ha⟩

end Markers

/-- Settles O11: each result of the scan, by the places of the markers and the address byte. -/
theorem scanHonorsFirstMarkers : Obligations.ScanHonorsFirstMarkers := by
  intro nodeId win
  refine ⟨scanFrame_eq_noStart_iff, fun s => scanFrame_eq_noEnd_iff.trans and_assoc, fun s e => ?_,
    fun s e h => (scanFrame_eq_addressed_iff.mp h).2, fun s e h => (scanFrame_eq_notForMe_iff.mp h).2⟩
  rw [scanFrame_eq_notForMe_iff, scanFrame_eq_addressed_iff, ← and_or_left, and_iff_left (ne_or_eq _ _)]
  exact and_assoc

/-! ### The payload of a line -/

section Payload

variable {nodeId : Byte} {line : Bytes}

/-- R107: a line has a payload when its window is a frame for this node, the bytes between address and end marker. -/
theorem framePayload_eq_ok_iff {p : Bytes} : framePayload nodeId line = .ok p ↔
    ∃ i e, scanFrame nodeId (window line) = .addressed i e ∧ (line.drop (i + 2)).take (e - i - 2) = p := by
  unfold framePayload
  cases scanFrame nodeId (window line) <;> simp

/-- R107: the payload ends at the end marker, inside the line. -/
theorem length_payload {i e : Nat} (h : scanFrame nodeId (window line) = .addressed i e) :
    ((line.drop (i + 2)).take (e - i - 2)).length = e - i - 2 := by
  obtain ⟨-, he⟩ := scanFrame_addressed_bounds h
  have hw := window_length_le line
  rw [List.length_take, List.length_drop]
  omega

theorem framePayload_error_or_framedAt (nodeId : Byte) (line : Bytes) :
    (∃ x, framePayload nodeId line = .error x)
      ∨ ∃ i e, FramedAt (window line) i e ∧ (window line)[i + 1]? = some nodeId := by
  cases hp : framePayload nodeId line with
  | error x => exact .inl ⟨x, rfl⟩
  | ok p =>
    obtain ⟨i, e, hsc, -⟩ := framePayload_eq_ok_iff.mp hp
    exact .inr ⟨i, e, scanFrame_eq_addressed_iff.mp hsc⟩

/-- R102: the start marker of the window is the line's first `/`. -/
theorem StartsAt.eq_length {before rest : Bytes} {i : Nat} (h : StartsAt (window (before ++ chSlash :: rest)) i)
    (hb : chSlash ∉ before) : i = before.length := by
  have hline := (List.takeWhile_prefix _).findIdx?_eq_some (findIdx?_beq_eq_some_iff.mpr h)
  exact Option.some.inj (hline.symm.trans (findIdx?_append_cons hb rest))

end Payload

/-- Settles O16: a frame in the window has both its markers in the line, and stands at the line's first `/`. -/
theorem unmarkedOrForeignLineHasNoPayload : Obligations.UnmarkedOrForeignLineHasNoPayload := by
  intro nodeId line
  obtain herr | ⟨i, e, hf, ha⟩ := framePayload_error_or_framedAt nodeId line
  · exact ⟨fun _ => herr, fun _ _ _ _ _ _ => herr⟩
  obtain ⟨hs, -, he, -⟩ := hf
  have hslash := List.mem_of_getElem? (getElem?_of_getElem?_window hs.1)
  have hbang := List.mem_of_getElem? (getElem?_of_getElem?_window he)
  refine ⟨fun h => absurd h (by simp [hslash, hbang]), ?_⟩
  rintro before addr after rfl hb hne
  obtain rfl := hs.eq_length hb
  exact absurd (by simpa using getElem?_of_getElem?_window ha) hne

end Sys2Proof

/-! The step in EXTRACT (spec/40_frame_extractor.md R107, R108, R111): one equation per result of the scan, and what
follows of them for a line that carries no command. O13, O14, O15, O17. -/

namespace Sys2Proof.Machine

/-! ### One step of EXTRACT -/

/-- The next step extracts `bs`, which LINE holds. -/
structure Extracting (s : State) (bs : Bytes) : Prop where
  pc : s.pc = .extract
  cfg : configOk s.cfg = true
  schedule : s.env.schedule = []
  lineLen : s.lineLen = bs.length
  length_le : bs.length ≤ s.cfg.inLineMax
  line : Holds s.line 0 bs

/-- What EXTRACT writes on the addressed path, before it chooses the control state (R107, R111). -/
def framed (i e : Nat) (s : State) : State :=
  { s with line := s.line.set e chNul
           work := { s.work with sIdx := i, eIdx := e, fres := .addressed, payLo := i + 2, payLen := e - i - 2 } }

theorem byte?_framed (i e : Nat) (s : State) (a : Nat) :
    (framed i e s).line.byte? a = if a = e then some chNul else s.line.byte? a := byte?_set _ _ _ _

/-- A part of what a buffer holds. -/
theorem Holds.slice {m : Memory} {lo : Nat} {bs : Bytes} (h : Holds m lo bs) (skip n : Nat) :
    Holds m (lo + skip) ((bs.drop skip).take n) := by
  intro j hj
  rw [List.length_take, List.length_drop] at hj
  rw [List.getElem?_take_of_lt (by omega), List.getElem?_drop, Nat.add_assoc]
  exact h _ (by omega)

/-- A write past what a buffer holds leaves it. -/
theorem Holds.set {m : Memory} {lo a : Nat} {bs : Bytes} (h : Holds m lo bs) (ha : lo + bs.length ≤ a) (v : Byte) :
    Holds (m.set a v) lo bs := by
  intro j hj
  rw [byte?_set, if_neg (by omega)]
  exact h j hj

section Extract

variable {s : State} {bs : Bytes} {i e : Nat}

/-- R111: the scan of the held line decides the step. -/
theorem Extracting.step_eq (h : Extracting s bs) :
    step s = andThen (applyScan (scanFrame s.cfg.nodeId (window bs)) s) afterExtract := by
  have hread : readBytes (lineSpace s.cfg) s.line 0 s.lineLen = .next bs := by
    rw [h.lineLen]
    exact readBytes_of_holds (by simpa using h.length_le) h.line
  rw [step_eq_controllerStep h.cfg h.schedule, controllerStep_of_extract h.pc, extractFrame, hread, andThen_next]

theorem Extracting.step_of_noStart (h : Extracting s bs) (hsc : scanFrame s.cfg.nodeId (window bs) = .noStart) :
    step s = .next { s with pc := .wait, work := { s.work with fres := .malformedNoStart } } := by
  rw [h.step_eq, hsc]; rfl

theorem Extracting.step_of_noEnd (h : Extracting s bs) (hsc : scanFrame s.cfg.nodeId (window bs) = .noEnd i) :
    step s = .next { s with pc := .wait, work := { s.work with sIdx := i, fres := .malformedNoEnd } } := by
  rw [h.step_eq, hsc]; rfl

theorem Extracting.step_of_notForMe (h : Extracting s bs)
    (hsc : scanFrame s.cfg.nodeId (window bs) = .notForMe i e) :
    step s = .next { s with pc := .wait, work := { s.work with sIdx := i, eIdx := e, fres := .notForMe } } := by
  rw [h.step_eq, hsc]; rfl

/-- R107, R108: the truncation byte lies inside LINE, and the payload's length chooses the control state. -/
theorem Extracting.step_of_addressed (h : Extracting s bs)
    (hsc : scanFrame s.cfg.nodeId (window bs) = .addressed i e) :
    step s = .next (goto (if e - i - 2 = 0 then .wait else .dispBegin) (framed i e s)) := by
  have hwrite : writeBytes (lineSpace s.cfg) s.line e [chNul] = .next (s.line.set e chNul) := by
    refine writeBytes_eq_next.mpr ⟨?_, rfl⟩
    obtain ⟨-, he⟩ := scanFrame_addressed_bounds hsc
    exact (Nat.succ_le_of_lt he).trans ((window_length_le bs).trans h.length_le)
  rw [h.step_eq, hsc, applyScan, hwrite, andThen_next, andThen_next]
  rw [afterExtract, if_pos rfl]
  split <;> rfl

/-- R107: the truncation byte stands past the payload view. -/
theorem Extracting.payload_framed (h : Extracting s bs) (hsc : scanFrame s.cfg.nodeId (window bs) = .addressed i e)
    (hie : i + 2 ≤ e) : payload (framed i e s) = .next ((bs.drop (i + 2)).take (e - i - 2)) := by
  obtain ⟨-, he⟩ := scanFrame_addressed_bounds hsc
  have hw := window_length_le bs
  have hmax := h.length_le
  have hlen := length_payload hsc
  have hheld := (Nat.zero_add _ ▸ h.line.slice (i + 2) (e - i - 2)).set (a := e) (by omega) chNul
  have hread := readBytes_of_holds (sp := lineSpace s.cfg) (by rw [hlen, lineSpace_size]; omega) hheld
  rwa [hlen] at hread

end Extract

/-- Settles O13: the addressed step with a payload that is not empty. -/
theorem extractAddressedEntersDispatch : Obligations.ExtractAddressedEntersDispatch := by
  intro s bs i e hpc hc hs hlen hle hh hsc hie
  have h : Extracting s bs := ⟨hpc, hc, hs, hlen, hle, hh⟩
  refine ⟨goto .dispBegin (framed i e s), ?_, rfl, ?_, fun a ha => ?_, h.payload_framed hsc (by omega)⟩
  · rw [h.step_of_addressed hsc, if_neg (by omega)]
  · exact (byte?_framed i e s e).trans (if_pos rfl)
  · exact (byte?_framed i e s a).trans (if_neg ha)

/-- Settles O14: the addressed step with an empty payload. -/
theorem emptyPayloadReturnsToWait : Obligations.EmptyPayloadReturnsToWait := by
  refine ⟨fun _ => rfl, fun s bs i e hpc hc hs hlen hle hh hsc hie => ?_⟩
  have h : Extracting s bs := ⟨hpc, hc, hs, hlen, hle, hh⟩
  have hempty : e - i - 2 = 0 := by omega
  refine ⟨goto .wait (framed i e s), ?_, ?_, ?_, fun a ha => ?_⟩
  · rw [h.step_of_addressed hsc, if_pos hempty]
  · rw [framed, hempty]; rfl
  · exact (byte?_framed i e s e).trans (if_pos rfl)
  · exact (byte?_framed i e s a).trans (if_neg ha)

/-- Settles O15: the three steps that write no byte of LINE. -/
theorem extractDropsForeignLine : Obligations.ExtractDropsForeignLine := by
  intro s bs hpc hc hs hlen hle hh
  have h : Extracting s bs := ⟨hpc, hc, hs, hlen, hle, hh⟩
  exact ⟨h.step_of_noStart, fun _ => h.step_of_noEnd, fun _ _ => h.step_of_notForMe⟩

/-! ### A line without a command -/

/-- R108: the empty payload alone is the no-op. -/
theorem decode_eq_nopEmpty_iff {p : Bytes} : decode p = .nopEmpty ↔ p = [] := by
  cases p with
  | nil => exact iff_of_true rfl rfl
  | cons op text => exact iff_of_false (classify_ne_nopEmpty op (tokens text)) (List.cons_ne_nil op text)

/-- R190: the codes of a dispatched command are 0, 5 and 6. -/
theorem eq_nopEmpty_of_outcome_code {i : Instr} (hlo : 1 ≤ (outcomeOf i).code) (hhi : (outcomeOf i).code ≤ 4) :
    i = .nopEmpty := by
  cases i with
  | nopEmpty => rfl
  | v | l | a | w | wOff => simp [outcomeOf, CycleOutcome.code] at hlo
  | lNoValue | wMissing | unknown => simp [outcomeOf, CycleOutcome.code] at hhi

/-- R112, R190: a line with one of the codes 1 to 4 is no frame for this node, or one with an empty payload. -/
theorem payload_empty_of_lineOutcome {nodeId : Byte} {bs : Bytes} {i e : Nat}
    (hlo : 1 ≤ (lineOutcome nodeId bs).code) (hhi : (lineOutcome nodeId bs).code ≤ 4)
    (hsc : scanFrame nodeId (window bs) = .addressed i e) : e - i - 2 = 0 := by
  have hp := framePayload_eq_ok_iff.mpr ⟨i, e, hsc, rfl⟩
  have hout : lineOutcome nodeId bs = outcomeOf (decode ((bs.drop (i + 2)).take (e - i - 2))) := by
    rw [lineOutcome, decodeLine, hp]
  rw [hout] at hlo hhi
  rw [← length_payload hsc, decode_eq_nopEmpty_iff.mp (eq_nopEmpty_of_outcome_code hlo hhi), List.length_nil]

/-- R112: EXTRACT drops a line without a payload, writing LINE and working registers alone. -/
theorem Extracting.step_of_noPayload {s : State} {bs : Bytes} (h : Extracting s bs)
    (hempty : ∀ i e, scanFrame s.cfg.nodeId (window bs) = .addressed i e → e - i - 2 = 0) :
    ∃ m wk, step s = .next { s with pc := .wait, line := m, work := wk } := by
  cases hsc : scanFrame s.cfg.nodeId (window bs) with
  | noStart => exact ⟨_, _, h.step_of_noStart hsc⟩
  | noEnd i => exact ⟨_, _, h.step_of_noEnd hsc⟩
  | notForMe i e => exact ⟨_, _, h.step_of_notForMe hsc⟩
  | addressed i e => exact ⟨_, _, (h.step_of_addressed hsc).trans (by rw [if_pos (hempty i e hsc)]; rfl)⟩

/-- What WAIT leaves when the host delivers `b` (R224). -/
def taken (b : Bytes) (later : List Bytes) (s : State) : State :=
  goto .extract (receiveLine b { s with env := { s.env with lines := later } })

section Taken

variable {s : State} {b : Bytes} {later : List Bytes}

theorem ReadyFor.step_eq (h : ReadyFor s b later) : step s = .next (taken b later s) := by
  obtain ⟨hpc, hc, hl, hb, hs⟩ := h
  rw [step_eq_controllerStep hc hs, controllerStep_of_wait hpc, waitStep_of_deliverable hl hb, taken]

theorem ReadyFor.extracting_taken (h : ReadyFor s b later) : Extracting (taken b later s) b := by
  obtain ⟨-, hc, -, hb, hs⟩ := h
  have hle : b.length ≤ s.cfg.inLineMax := of_decide_eq_true (Bool.and_eq_true_iff.mp hb).1
  exact ⟨rfl, hc, hs, rfl, hle, holds_setBytes [] 0 b⟩

end Taken

/-- Settles O17: WAIT records the line, EXTRACT finds no payload in it. -/
theorem lineWithoutCommandIsSilent : Obligations.LineWithoutCommandIsSilent := by
  intro s b later h hlo hhi
  obtain ⟨m, wk, hdrop⟩ :=
    h.extracting_taken.step_of_noPayload fun _ _ => payload_empty_of_lineOutcome hlo hhi
  exact ⟨_, (run_next h.step_eq).trans (run_next hdrop), rfl, rfl, rfl, rfl, rfl, rfl, rfl, rfl, rfl⟩

end Sys2Proof.Machine

/-! The argument primitives (spec/41_dispatcher.md R125 to R131) as rewriting facts: the tokenizer cuts at every
separator, a numeral is built digit by digit and read back, the narrowings agree with arithmetic. O6 to O10. -/

namespace Sys2Proof.Machine

/-! ### The tokenizer -/

section TokenRuns

variable {b : Byte} {cur text : Bytes} {t : Token}

theorem isSeparator_eq_true_iff : isSeparator b = true ↔ b = 0x20 ∨ b = 0x2C := by
  simp [isSeparator, chSpace, chComma]

theorem isSeparator_eq_false_iff : isSeparator b = false ↔ b ≠ 0x20 ∧ b ≠ 0x2C := by
  simp [isSeparator, chSpace, chComma]

/-- A separator ends the run read so far, and the scan starts anew (R125). -/
theorem tokensFrom_append_separator (hb : isSeparator b = true) (cur x y : Bytes) :
    tokensFrom cur (x ++ b :: y) = tokensFrom cur x ++ tokens y := by
  induction x generalizing cur with
  | nil => by_cases hcur : cur = [] <;> simp [tokensFrom, hb, hcur, tokens]
  | cons c more ih =>
    cases hc : isSeparator c with
    | true => by_cases hcur : cur = [] <;> simp [tokensFrom, hc, hcur, ih]
    | false => simp [tokensFrom, hc, ih]

/-- Nothing but separators is lost (R125). -/
theorem flatten_tokensFrom (cur text : Bytes) :
    (tokensFrom cur text).flatten = cur ++ text.filter (fun b => !isSeparator b) := by
  induction text generalizing cur with
  | nil => by_cases hcur : cur = [] <;> simp [tokensFrom, hcur]
  | cons b rest ih =>
    cases hb : isSeparator b with
    | true => by_cases hcur : cur = [] <;> simp [tokensFrom, hb, hcur, ih]
    | false => simp [tokensFrom, hb, ih]

/-- A token is a non-empty run of non-separators (R125). -/
theorem token_of_mem_tokensFrom (hcur : ∀ b ∈ cur, isSeparator b = false) (ht : t ∈ tokensFrom cur text) :
    t ≠ [] ∧ ∀ b ∈ t, isSeparator b = false := by
  induction text generalizing cur with
  | nil =>
    by_cases hne : cur = []
    · simp [tokensFrom, hne] at ht
    · obtain rfl : t = cur := by simpa [tokensFrom, hne] using ht
      exact ⟨hne, hcur⟩
  | cons b rest ih =>
    cases hb : isSeparator b with
    | true =>
      by_cases hne : cur = []
      · exact ih (List.forall_mem_nil _) (by simpa [tokensFrom, hb, hne] using ht)
      · obtain rfl | ht : t = cur ∨ t ∈ tokensFrom [] rest := by simpa [tokensFrom, hb, hne] using ht
        · exact ⟨hne, hcur⟩
        · exact ih (List.forall_mem_nil _) ht
    | false =>
      refine ih (cur := cur ++ [b]) ?_ (by simpa [tokensFrom, hb] using ht)
      exact List.forall_mem_append.mpr ⟨hcur, List.forall_mem_singleton.mpr hb⟩

/-- A run of non-separators alone is one token (R125). -/
theorem tokens_of_run (hne : t ≠ []) (ht : ∀ b ∈ t, isSeparator b = false) : tokens t = [t] := by
  have hscan := tokensFrom_append_run ht [] []
  rw [List.append_nil, List.nil_append] at hscan
  rw [tokens, hscan, tokensFrom, if_neg hne]

end TokenRuns

/-- Settles O6: the scan's four laws, for the empty run read so far. -/
theorem tokensAreMaximalRuns : Obligations.TokensAreMaximalRuns := by
  refine ⟨fun text t ht => ?_, fun text => ?_, fun x y b hb => ?_, fun t hne ht => ?_, rfl⟩
  · obtain ⟨hne, hrun⟩ := token_of_mem_tokensFrom (List.forall_mem_nil _) ht
    exact ⟨hne, fun b hb => isSeparator_eq_false_iff.mp (hrun b hb)⟩
  · simpa [tokens, isSeparator, chSpace, chComma, bne] using flatten_tokensFrom [] text
  · exact tokensFrom_append_separator (isSeparator_eq_true_iff.mpr hb) [] x y
  · exact tokens_of_run hne fun b hb => isSeparator_eq_false_iff.mpr (ht b hb)

/-! ### Decimal numerals, digit by digit -/

section Numerals

variable {n m d : Nat}

theorem digitByte_toNat (hd : d < 10) : (digitByte d).toNat = 0x30 + d := by
  simp only [digitByte, BitVec.toNat_ofNat]
  omega

theorem isDigit_iff {b : Byte} : isDigit b = true ↔ 0x30 ≤ b.toNat ∧ b.toNat ≤ 0x39 := by simp [isDigit]

theorem isDigit_digitByte (hd : d < 10) : isDigit (digitByte d) = true := by
  rw [isDigit_iff, digitByte_toNat hd]
  omega

/-- Enough fuel spells the same digits, and what is already spelled stays behind them. -/
theorem decOnto_eq_append {fuel n : Nat} (h : n < fuel) (acc : Bytes) : decOnto fuel n acc = dec n ++ acc := by
  induction n using Nat.strongRecOn generalizing fuel acc with
  | ind n ih =>
    obtain ⟨fuel, rfl⟩ : ∃ f, fuel = f + 1 := ⟨fuel - 1, by omega⟩
    rw [dec, decOnto, decOnto]
    split
    · rfl
    · rw [ih (n / 10) (by omega) (by omega), ih (n / 10) (by omega) (by omega), List.append_assoc]
      rfl

theorem dec_of_lt (hd : d < 10) : dec d = [digitByte d] := by
  rw [dec, decOnto, if_pos hd]

/-- A further digit stands behind the others (R131). -/
theorem dec_push (hn : 0 < n) (hd : d < 10) : dec (10 * n + d) = dec n ++ [digitByte d] := by
  rw [dec, decOnto, if_neg (by omega), show (10 * n + d) / 10 = n by omega, show (10 * n + d) % 10 = d by omega,
    decOnto_eq_append (by omega)]

/-- Numbers as their numerals are built: one digit, or a further digit behind a number that is not 0. -/
theorem decimal_induction {P : Nat → Prop} (digit : ∀ d < 10, P d)
    (push : ∀ n d, 0 < n → d < 10 → P n → P (10 * n + d)) (n : Nat) : P n := by
  induction n using Nat.strongRecOn with
  | ind n ih =>
    by_cases hn : n < 10
    · exact digit n hn
    · rw [← Nat.div_add_mod n 10]
      exact push _ _ (by omega) (Nat.mod_lt n (by omega)) (ih _ (by omega))

theorem dec_ne_nil (n : Nat) : dec n ≠ [] := by
  induction n using decimal_induction with
  | digit d hd => simp [dec_of_lt hd]
  | push n d hn hd ih => simp [dec_push hn hd]

theorem isDigit_of_mem_dec (n : Nat) : ∀ b ∈ dec n, isDigit b = true := by
  induction n using decimal_induction with
  | digit d hd => simpa [dec_of_lt hd] using isDigit_digitByte hd
  | push n d hn hd ih => simpa [dec_push hn hd, or_imp, forall_and] using ⟨ih, isDigit_digitByte hd⟩

/-- A run of digits with one more behind it (R127). -/
theorem digitsValue_append_digit (ds : Bytes) (hd : d < 10) :
    digitsValue (ds ++ [digitByte d]) = 10 * digitsValue ds + d := by
  simp [digitsValue, digitByte_toNat hd]

/-- R127 reads back what R131 spells. -/
theorem digitsValue_dec (n : Nat) : digitsValue (dec n) = n := by
  induction n using decimal_induction with
  | digit d hd => simp [dec_of_lt hd, digitsValue, digitByte_toNat hd]
  | push n d hn hd ih => rw [dec_push hn hd, digitsValue_append_digit _ hd, ih]

/-- No numeral but that of 0 begins with `0` (R131). -/
theorem eq_zero_of_head?_dec (h : (dec n).head? = some 0x30) : n = 0 := by
  induction n using decimal_induction with
  | digit d hd =>
    have hb : digitByte d = 0x30 := by simpa [dec_of_lt hd] using h
    have hv := digitByte_toNat hd
    rw [hb] at hv
    simpa using hv.symm
  | push n d hn hd ih =>
    rw [dec_push hn hd, List.head?_append_of_ne_nil _ (dec_ne_nil n)] at h
    exact absurd (ih h) (by omega)

/-- A larger number has no shorter numeral. -/
theorem length_dec_mono (h : m ≤ n) : (dec m).length ≤ (dec n).length := by
  induction n using decimal_induction generalizing m with
  | digit d hd => simp [dec_of_lt hd, dec_of_lt (show m < 10 by omega)]
  | push n d hn hd ih =>
    rw [dec_push hn hd, List.length_append, List.length_singleton]
    by_cases hm : m < 10
    · simp [dec_of_lt hm]
    · rw [← Nat.div_add_mod m 10, dec_push (by omega) (Nat.mod_lt m (by omega))]
      simpa using ih (m := m / 10) (by omega)

end Numerals

/-- Settles O8: the laws of the numeral, each by induction on its digits. -/
theorem decIsShortestNumeral : Obligations.DecIsShortestNumeral := fun n =>
  ⟨dec_ne_nil n, fun b hb => isDigit_iff.mp (isDigit_of_mem_dec n b hb), digitsValue_dec n, eq_zero_of_head?_dec, rfl,
    fun _ => length_dec_mono⟩

/-! ### Parse-or-zero -/

section Parsing

variable {blanks zeros after text ds : Bytes} {n : Nat}

theorem isBlank_iff {b : Byte} : isBlank b = true ↔ b = 0x20 ∨ (0x09 ≤ b.toNat ∧ b.toNat ≤ 0x0D) := by
  simp only [isBlank, Bool.or_eq_true, beq_iff_eq]
  bv_omega

/-- R127: blanks are skipped up to the first other byte. -/
theorem num_append_of_blanks (hblanks : ∀ b ∈ blanks, isBlank b = true)
    (htext : ∀ b, text.head? = some b → isBlank b = false) : num (blanks ++ text) = signedNum text := by
  rw [num, List.dropWhile_append_of_pos hblanks]
  cases text with
  | nil => rfl
  | cons c rest => rw [List.dropWhile_cons_of_neg (by simp [htext c rfl])]

/-- R127: digits are read up to the first other byte. -/
theorem leadingNat_append (hds : ∀ b ∈ ds, isDigit b = true) (hafter : ∀ b, after.head? = some b → isDigit b = false) :
    leadingNat (ds ++ after) = digitsValue ds := by
  rw [leadingNat, List.takeWhile_append_of_pos hds]
  cases after with
  | nil => simp
  | cons c rest => rw [List.takeWhile_cons_of_neg (by simp [hafter c rfl]), List.append_nil]

/-- R127: without a sign the digits are read at once. -/
theorem signedNum_of_unsigned (h : ∀ b, text.head? = some b → b ≠ chMinus ∧ b ≠ chPlus) :
    signedNum text = leadingNat text := by
  cases text with
  | nil => rfl
  | cons c rest =>
    obtain ⟨hminus, hplus⟩ := h c rfl
    rw [signedNum, if_neg hminus, if_neg hplus]

/-- Leading zeros do not count. -/
theorem digitsValue_zeros_append (hz : ∀ z ∈ zeros, z = 0x30) (ds : Bytes) :
    digitsValue (zeros ++ ds) = digitsValue ds := by
  induction zeros with
  | nil => rfl
  | cons z more ih =>
    obtain ⟨rfl, hmore⟩ := List.forall_mem_cons.mp hz
    exact ih hmore

theorem isDigit_of_mem_zeros_append_dec (hz : ∀ z ∈ zeros, z = 0x30) : ∀ b ∈ zeros ++ dec n, isDigit b = true := by
  refine List.forall_mem_append.mpr ⟨fun b hb => ?_, isDigit_of_mem_dec n⟩
  rw [hz b hb]
  rfl

/-- A numeral, with leading zeros or without, is read as its number. -/
theorem leadingNat_numeral (hz : ∀ z ∈ zeros, z = 0x30) (hafter : ∀ b, after.head? = some b → isDigit b = false) :
    leadingNat (zeros ++ dec n ++ after) = n := by
  rw [leadingNat_append (isDigit_of_mem_zeros_append_dec hz) hafter, digitsValue_zeros_append hz, digitsValue_dec]

/-- Such a numeral begins with a digit. -/
theorem isDigit_of_head?_numeral (hz : ∀ z ∈ zeros, z = 0x30) {b : Byte}
    (h : (zeros ++ dec n ++ after).head? = some b) : isDigit b = true := by
  rw [List.head?_append_of_ne_nil _ (by simp [dec_ne_nil])] at h
  exact isDigit_of_mem_zeros_append_dec hz b (List.mem_of_head? h)

/-- A digit is no blank and no sign. -/
theorem not_blank_or_sign_of_isDigit {b : Byte} (h : isDigit b = true) :
    isBlank b = false ∧ b ≠ chMinus ∧ b ≠ chPlus := by
  rw [isDigit_iff] at h
  refine ⟨Bool.eq_false_iff.mpr fun hb => ?_, ?_, ?_⟩
  · obtain rfl | hb := isBlank_iff.mp hb
    · exact absurd h (by decide)
    · omega
  · rintro rfl; exact absurd h (by decide)
  · rintro rfl; exact absurd h (by decide)

/-- Text without leading digits is read as 0. -/
theorem leadingNat_of_no_digit (hafter : ∀ b, after.head? = some b → isDigit b = false) : leadingNat after = 0 :=
  leadingNat_append (ds := []) nofun hafter

end Parsing

/-- Settles O7: past the blanks the parser sees a numeral, a sign, other text or nothing. -/
theorem numReadsSignAndDigits : Obligations.NumReadsSignAndDigits := by
  intro blanks after hblanks hafter
  replace hblanks : ∀ b ∈ blanks, isBlank b = true := fun b hb => isBlank_iff.mpr (hblanks b hb)
  replace hafter : ∀ b, after.head? = some b → isDigit b = false :=
    fun b hb => Bool.eq_false_iff.mpr fun hd => hafter b hb (isDigit_iff.mp hd)
  have hminus (rest : Bytes) : num (blanks ++ chMinus :: rest) = -(leadingNat rest : Int) :=
    num_append_of_blanks hblanks (by rintro b ⟨⟩; rfl)
  have hplus (rest : Bytes) : num (blanks ++ chPlus :: rest) = (leadingNat rest : Int) :=
    num_append_of_blanks hblanks (by rintro b ⟨⟩; rfl)
  refine ⟨fun n zeros hz => ⟨?_, ?_, ?_⟩, fun sign hsign => ?_, fun b hb hne hne' hblank => ?_, ?_⟩
  · have hdigit {b : Byte} (hb : (zeros ++ dec n ++ after).head? = some b) :=
      not_blank_or_sign_of_isDigit (isDigit_of_head?_numeral hz hb)
    rw [List.append_assoc, List.append_assoc, ← List.append_assoc zeros,
      num_append_of_blanks hblanks fun b hb => (hdigit hb).1, signedNum_of_unsigned fun b hb => (hdigit hb).2,
      leadingNat_numeral hz hafter]
  · rw [List.append_assoc, List.cons_append]
    exact (hminus _).trans (by rw [leadingNat_numeral hz hafter])
  · rw [List.append_assoc, List.cons_append]
    exact (hplus _).trans (by rw [leadingNat_numeral hz hafter])
  · obtain rfl | rfl := hsign
    · exact (hplus after).trans (by rw [leadingNat_of_no_digit hafter]; rfl)
    · exact (hminus after).trans (by rw [leadingNat_of_no_digit hafter]; rfl)
  · have hhead {c : Byte} (hc : after.head? = some c) : c = b := Option.some.inj (hc.symm.trans hb)
    rw [num_append_of_blanks hblanks fun c hc => ?_, signedNum_of_unsigned fun c hc => ?_,
      leadingNat_of_no_digit hafter]
    · rfl
    · exact hhead hc ▸ ⟨hne', hne⟩
    · exact Bool.eq_false_iff.mpr fun h => hblank (isBlank_iff.mp (hhead hc ▸ h))
  · simpa [signedNum] using num_append_of_blanks (text := []) hblanks nofun

/-! ### The narrowings -/

/-- Settles O9: within 0..255 the low eight bits are the number. -/
theorem clampNarrowsToLevel : Obligations.ClampNarrowsToLevel := by
  intro v
  rw [clamp]
  split
  · rfl
  · split
    · rfl
    · rw [BitVec.toNat_ofInt]
      omega

/-- Settles O10: bit 0 is the remainder by 2, for negative integers too. -/
theorem lsbIsParityTruthIsNonzero : Obligations.LsbIsParityTruthIsNonzero := by
  intro v
  refine ⟨by simp [lsb], ?_, truth_eq_true_iff, by simp [truth]⟩
  rw [lsb, beq_eq_false_iff_ne]
  omega

end Sys2Proof.Machine

/-! One equation per row of a dispatch (spec/41_dispatcher.md R121 to R123, R133): what DISP_BEGIN, EXEC(k), REPLY and
DISP_END write, and that every reply fits OUT (spec/30_encoding.md R84). O18, O25 to O35. -/

namespace Sys2Proof.Machine

/-- Settles O18: past the configuration check a step with nothing scheduled is the controller's row. -/
theorem stepRunsDecodedCommand : Obligations.StepRunsDecodedCommand := by
  intro s hc hs
  rw [step_eq_controllerStep hc hs]
  refine ⟨fun p hpc hp => ?_, fun k hpc => ?_, fun hpc => ?_, fun hpc => ?_⟩
  · rw [controllerStep_of_dispBegin hpc, hp, andThen_next]
  all_goals simp only [controllerStep, hpc, currentInstr]

/-! ### Every reply fits OUT -/

section ReplySize

variable {c : Config} {rd : Vector Nat 5} {i : Instr}

/-- R84: OUT holds the longest reply. -/
theorem longestData_le_of_configOk (hc : configOk c = true) : 6 + longestData c ≤ c.outLineMax := by
  simp only [configOk, Bool.and_eq_true, decide_eq_true_eq] at hc
  tauto

/-- The bit `L` echoes, spelled (R142). -/
theorem dec_lBit (value : Token) :
    dec (if lBit value then 1 else 0) = if num value % 2 = 1 then [0x31] else [0x30] := by
  by_cases h : num value % 2 = 1 <;> simp [lBit, lsb, h] <;> rfl

/-- The readings, one space between them (R83, R144). -/
theorem dataOf_a (c : Config) (rd : Vector Nat 5) (args : List Token) :
    dataOf c rd (.a args) = dec rd[0] ++ [chSpace] ++ dec rd[1] ++ [chSpace] ++ dec rd[2] ++ [chSpace] ++ dec rd[3]
      ++ [chSpace] ++ dec rd[4] := by
  simp [dataOf]

/-- R83, R84: the longest reply's data is longest; only that of `a` depends on RD. -/
theorem length_dataOf_le (hrd : ∀ args, i = .a args → ∀ j (_ : j < 5), rd[j] ≤ c.adcMax) :
    (dataOf c rd i).length ≤ longestData c := by
  unfold longestData
  cases i with
  | nopEmpty => exact Nat.zero_le _
  | v | lNoValue | wMissing | unknown => simp only [dataOf]; omega
  | wOff => simp only [dataOf, txtOff, List.length_cons, List.length_nil]; omega
  | l value rest =>
    have hbit : (dataOf c rd (.l value rest)).length = 1 := by rw [dataOf, dec_lBit]; split <;> rfl
    omega
  | w level flag rest =>
    have hlevel : (dec (wLevel level).toNat).length ≤ (dec 255).length :=
      length_dec_mono (Nat.lt_succ_iff.mp (wLevel level).isLt)
    have hthree : (dec 255).length = 3 := rfl
    simp only [dataOf]
    omega
  | a args =>
    have hreading (j : Nat) (hj : j < 5) := length_dec_mono (hrd args rfl j hj)
    have h0 := hreading 0 (by omega)
    have h1 := hreading 1 (by omega)
    have h2 := hreading 2 (by omega)
    have h3 := hreading 3 (by omega)
    have h4 := hreading 4 (by omega)
    simp only [dataOf_a, List.length_append, List.length_singleton]
    omega

/-- R84: under a valid configuration every reply fits OUT. -/
theorem reply_fits (hc : configOk c = true) (hrd : ∀ args, i = .a args → ∀ j (_ : j < 5), rd[j] ≤ c.adcMax) :
    6 + (dataOf c rd i).length ≤ c.outLineMax :=
  (Nat.add_le_add_left (length_dataOf_le hrd) 6).trans (longestData_le_of_configOk hc)

end ReplySize

/-! ### What a command plans and replies -/

section Commands

variable {s : State} {i : Instr} {op : Byte} {args : List Token}

/-- A command with an opcode is dispatched as its handler (R132). -/
theorem exec_of_fields (hf : i.fields = some (op, args)) (s : State) : exec i s =
    runHandler { op := op, args := args, plan := planOf s.cfg i, setsOverride := writesOverride i
                 data := dataOf s.cfg s.rd i } s := by
  have hi : i ≠ .nopEmpty := fun h => by simp [fields_eq_none_iff.mpr h] at hf
  rw [exec_eq_runHandler hi]
  simp only [handlerOf, hf]

theorem runHandler_of_dispBegin (h : Handler) (hpc : s.pc = .dispBegin) :
    runHandler h s = .next (begun h.op h.args h.plan h.setsOverride s) := by
  simp only [runHandler, hpc, beginDispatch_eq_begun]

theorem runHandler_of_dispEnd (h : Handler) (hpc : s.pc = .dispEnd) : runHandler h s = .next (endDispatch s) := by
  simp only [runHandler, hpc]

/-- R121, R122: DISP_BEGIN of a command. -/
theorem exec_of_dispBegin (hf : i.fields = some (op, args)) (hpc : s.pc = .dispBegin) :
    exec i s = .next (begun op args (planOf s.cfg i) (writesOverride i) s) :=
  (exec_of_fields hf s).trans (runHandler_of_dispBegin _ hpc)

/-- R133: a reply that fits OUT is assembled there, and every other byte of OUT stays. -/
theorem assembleReply_assembled (h : Handler) (hfit : 6 + h.data.length ≤ s.cfg.outLineMax) :
    ∃ t, assembleReply h s = .next t ∧ Assembled h.op h.data s t := by
  have hwrite : writeBytes (outSpace s.cfg) s.out 0 (replyBytes h.op h.data) =
      .next (s.out.setBytes 0 (replyBytes h.op h.data)) := writeBytes_eq_next.mpr ⟨by simpa using hfit, rfl⟩
  refine ⟨{ s with pc := afterAssembly s.cfg, out := s.out.setBytes 0 (replyBytes h.op h.data)
                   outLen := 6 + h.data.length }, ?_, rfl, fun a => ?_⟩
  · rw [assembleReply, hwrite, andThen_next, replyBytes_length]
    rfl
  · simp [byte?_setBytes]

/-- R121, R133: a command whose transactions are done assembles its reply. -/
theorem exec_of_planDone (hf : i.fields = some (op, args)) (hpc : s.pc = .exec s.work.plan.length)
    (hc : configOk s.cfg = true) (hrd : ∀ args, i = .a args → ReadingInv s) :
    ∃ t, exec i s = .next t ∧ Assembled op (dataOf s.cfg s.rd i) s t := by
  rw [exec_of_fields hf, runHandler_of_planDone _ hpc (by simp)]
  exact assembleReply_assembled _ (reply_fits hc fun args ha => readingInv_iff.mp (hrd args ha))

end Commands

/-- Settles O25: `v` has an empty plan and replies the version. -/
theorem versionPlansAndReplies : Obligations.VersionPlansAndReplies := fun _ args =>
  ⟨exec_of_dispBegin (i := .v args) rfl, fun hpc hc => exec_of_planDone (i := .v args) rfl hpc hc nofun⟩

/-- Settles O26: `L` with a value plans and echoes its low bit. -/
theorem overridePlansAndReplies : Obligations.OverridePlansAndReplies := by
  intro s value rest
  refine ⟨exec_of_dispBegin (i := .l value rest) rfl, fun hpc hc => ?_⟩
  rw [← dec_lBit]
  exact exec_of_planDone (i := .l value rest) rfl hpc hc nofun

/-- Settles O27: `L` without a value has an empty plan and replies its error text. -/
theorem overrideNoValuePlansAndReplies : Obligations.OverrideNoValuePlansAndReplies := fun _ =>
  ⟨exec_of_dispBegin (i := .lNoValue) rfl, fun hpc hc => exec_of_planDone (i := .lNoValue) rfl hpc hc nofun⟩

/-- Settles O28: `a` plans five reads; readings in range fit the reply. -/
theorem analogPlansAndReplies : Obligations.AnalogPlansAndReplies := by
  intro s args
  refine ⟨exec_of_dispBegin (i := .a args) rfl, fun hpc hc hr => ?_⟩
  rw [← dataOf_a s.cfg s.rd args]
  exact exec_of_planDone (i := .a args) rfl hpc hc fun _ _ => hr

/-- Settles O29: `w` with the output on, with its flag or without. -/
theorem referenceOnPlansAndReplies : Obligations.ReferenceOnPlansAndReplies := by
  intro s level flag rest
  have hf : (Instr.w level flag rest).fields = some (chW, level :: (flag.toList ++ rest)) := by cases flag <;> rfl
  exact ⟨exec_of_dispBegin hf, fun hpc hc => exec_of_planDone hf hpc hc nofun⟩

/-- Settles O30: `w` with the output off plans one transaction and replies `off`. -/
theorem referenceOffPlansAndReplies : Obligations.ReferenceOffPlansAndReplies := fun _ level flag rest =>
  ⟨exec_of_dispBegin (i := .wOff level flag rest) rfl,
    fun hpc hc => exec_of_planDone (i := .wOff level flag rest) rfl hpc hc nofun⟩

/-- Settles O31: `w` without an argument has an empty plan and replies its error text. -/
theorem referenceMissingPlansAndReplies : Obligations.ReferenceMissingPlansAndReplies := fun _ =>
  ⟨exec_of_dispBegin (i := .wMissing) rfl, fun hpc hc => exec_of_planDone (i := .wMissing) rfl hpc hc nofun⟩

/-- Settles O32: an unknown opcode is echoed as it came. -/
theorem unknownPlansAndReplies : Obligations.UnknownPlansAndReplies := fun _ op args =>
  ⟨exec_of_dispBegin (i := .unknown op args) rfl,
    fun hpc hc => exec_of_planDone (i := .unknown op args) rfl hpc hc nofun⟩

/-! ### The rows every command shares -/

section SharedRows

variable {s t : State} {i : Instr} {k : Nat} {q : HalReq}

/-- EXEC(k) when its transaction completes (R121). -/
theorem issueEntry_of_completeHal (h : completeHal q (readIndex s.work.plan k) s = .next t) :
    issueEntry k q s = .next { t with pc := .exec (k + 1), work := { t.work with k := k + 1 } } := by
  rw [issueEntry, h, andThen_next]
  rfl

theorem exec_of_entry (hi : i ≠ .nopEmpty) (hpc : s.pc = .exec k) (hq : s.work.plan[k]? = some q)
    (h : completeHal q (readIndex s.work.plan k) s = .next t) :
    exec i s = .next { t with pc := .exec (k + 1), work := { t.work with k := k + 1 } } := by
  rw [exec_eq_runHandler hi, runHandler_of_entry _ hpc hq, issueEntry_of_completeHal h]

/-- What reply assembly leaves (R133). -/
def assembled (s : State) : State :=
  { s with pc := afterAssembly s.cfg, out := s.out.setBytes 0 (currentReply s), outLen := (currentReply s).length }

/-- R133: past PLAN a reply that fits OUT is assembled. -/
theorem controllerStep_of_fits (hpc : s.pc = .exec k) (hq : s.work.plan[k]? = none)
    (hfit : (currentReply s).length ≤ s.cfg.outLineMax) : controllerStep s = .next (assembled s) := by
  have hwrite : writeBytes (outSpace s.cfg) s.out 0 (currentReply s) = .next (s.out.setBytes 0 (currentReply s)) :=
    writeBytes_eq_next.mpr ⟨by simpa using hfit, rfl⟩
  rw [controllerStep_of_assembly hpc hq, hwrite, andThen_next, assembled]

/-- REPLY transmits what OUT holds (R121). -/
theorem emitReply_of_holds {reply : Bytes} (hlen : s.outLen = reply.length) (hfit : reply.length ≤ s.cfg.outLineMax)
    (hout : Holds s.out 0 reply) :
    emitReply s = .next { s with pc := afterReply s.cfg, trace := s.trace ++ [.writeLine reply] } := by
  have hread : readBytes (outSpace s.cfg) s.out 0 s.outLen = .next reply := by
    rw [hlen]
    exact readBytes_of_holds (by simpa using hfit) hout
  rw [emitReply, hread, andThen_next]
  rfl

theorem session_of_override (ho : s.session.override = true) :
    s.session = { override := true, ind := s.session.ind } := by rw [← ho]

/-- What DISP_END leaves: the indicator goes off unless OVERRIDE is 1 (R121, R123). -/
def ended (s : State) : State :=
  { s with
    pc := afterDispEnd s.cfg
    session := { s.session with ind := s.session.override && s.session.ind }
    trace := s.trace ++ if s.session.override then [] else [.indSet false] }

theorem endDispatch_eq_ended (s : State) : endDispatch s = ended s := by
  cases ho : s.session.override with
  | false => simp [endDispatch, ended, autoIndicate, ho, goto, indicate, record]
  | true => simp [endDispatch, ended, autoIndicate, ho, goto, ← session_of_override ho]

end SharedRows

/-- Settles O33: the k-th transaction completes; an `adcRead` writes the register of its place in the plan. -/
theorem halTransactionEffects : Obligations.HalTransactionEffects := by
  intro i s k hi hpc
  refine ⟨fun hq => exec_of_entry hi hpc hq rfl, fun hq => exec_of_entry hi hpc hq rfl,
    fun hq => exec_of_entry hi hpc hq rfl, fun hq => exec_of_entry hi hpc hq rfl,
    fun l hq => exec_of_entry hi hpc hq rfl, fun b hq => exec_of_entry hi hpc hq rfl,
    fun b hq => exec_of_entry hi hpc hq rfl, fun ch n hq hr ha hn hlt => ?_⟩
  rw [← readIndex_eq_readsBefore] at hn
  refine ⟨_, exec_of_entry hi hpc hq (completeHal_adcRead_eq_next.mpr ⟨hr, ha, hn ▸ hlt, rfl⟩), rfl, nextReading_le s,
    fun j hj => ?_⟩
  simp only [storeReading_rd, Vector.getElem_setIfInBounds, ← hn, eq_comm]

/-- Settles O34: what OUT holds is transmitted. -/
theorem replyIsTransmittedWhole : Obligations.ReplyIsTransmittedWhole := by
  intro i s reply hi hpc hlen hfit hout
  rw [exec_eq_runHandler hi, runHandler_of_reply _ hpc, emitReply_of_holds hlen hfit hout, afterReply]

/-- Settles O35: DISP_END, by OVERRIDE. -/
theorem dispatchEndsWithIndicatorOff : Obligations.DispatchEndsWithIndicatorOff := by
  intro i s hi hpc
  rw [exec_eq_runHandler hi, runHandler_of_dispEnd _ hpc]
  refine ⟨fun ho => ?_, fun ho => ?_⟩
  · simp [endDispatch_eq_ended, ended, ho, afterDispEnd]
  · simp [endDispatch_eq_ended, ended, ho, afterDispEnd, ← session_of_override ho]

end Sys2Proof.Machine

/-! From every control state of a cycle the next one is reached, and a rank falls with it (spec/41_dispatcher.md R134,
spec/60_exceptions.md R196, O56). -/

namespace Sys2Proof.Machine

section Progress

variable {s t : State}

/-! ### No row stops -/

/-- R111: a line that LINE holds is scanned, and the truncation byte lies inside it. -/
theorem extractFrame_progress (hline : HoldsValues s.line 0 s.lineLen) (hlen : s.lineLen ≤ s.cfg.inLineMax) :
    ∃ u, extractFrame s = .next u := by
  obtain ⟨bs, hread⟩ := readBytes_of_holdsValues (sp := lineSpace s.cfg) (by simpa using hlen) hline
  obtain ⟨hbs, -, -⟩ := holds_of_readBytes hread
  rw [extractFrame, hread, andThen_next]
  cases hsc : scanFrame s.cfg.nodeId (window bs) with
  | noStart | noEnd | notForMe => exact ⟨_, rfl⟩
  | addressed i e =>
    obtain ⟨-, he⟩ := scanFrame_addressed_bounds hsc
    have hw := window_length_le bs
    have hwrite : writeBytes (lineSpace s.cfg) s.line e [chNul] = .next (s.line.setBytes e [chNul]) :=
      writeBytes_eq_next.mpr ⟨by simp only [lineSpace_size, List.length_singleton]; omega, rfl⟩
    exact ⟨_, by rw [applyScan, hwrite, andThen_next]⟩

theorem afterExtract_progress (u : State) : ∃ t, afterExtract u = .next t := by
  unfold afterExtract
  split
  · split <;> exact ⟨_, rfl⟩
  · exact ⟨_, rfl⟩

/-- R149: no plan is longer than that of `a`. -/
theorem length_planOf_le (c : Config) (i : Instr) : (planOf c i).length ≤ 5 := by
  cases i <;> simp [planOf]

/-- R174, R177: a read of a plan has a register, for no plan has more than five entries. -/
theorem readIndex_lt_five {plan : List HalReq} {k : Nat} (hk : k < plan.length) (hplan : plan.length ≤ 5) :
    readIndex plan k < 5 := by
  have hle : readIndex plan k ≤ (plan.take k).length := List.countP_le_length
  rw [List.length_take] at hle
  omega

/-- R179: with the reference and the ADC on every transaction completes. -/
theorem completeHal_progress {q : HalReq} {i : Nat} (hr : s.periph.refOn = true) (ha : s.periph.adcOn = true)
    (hi : i < 5) : ∃ t, completeHal q i s = .next t := by
  cases q with
  | adcRead ch => exact ⟨_, completeHal_adcRead_eq_next.mpr ⟨hr, ha, hi, rfl⟩⟩
  | _ => exact ⟨_, rfl⟩

/-- Under the invariant the reply of the command being dispatched fits OUT (R84). -/
theorem length_currentReply_le (hi : MachineInv s) : (currentReply s).length ≤ s.cfg.outLineMax := by
  obtain ⟨hc, -, -, hr, -⟩ := hi
  rw [currentReply, replyBytes_length]
  exact reply_fits hc fun _ _ => readingInv_iff.mp hr

/-- Under the invariant no row of a cycle stops. -/
theorem controllerStep_progress (hi : MachineInv s) (hw : s.pc ≠ .wait) : ∃ t, controllerStep s = .next t := by
  obtain ⟨-, ⟨-, -, -, -, hll, -⟩, ⟨href, hadc⟩, -, hctl⟩ := id hi
  cases hpc : s.pc with
  | boot0 => exact ⟨_, controllerStep_of_boot0 hpc⟩
  | boot1 => exact ⟨_, controllerStep_of_boot1 hpc⟩
  | boot2 => exact ⟨_, controllerStep_of_boot2 hpc⟩
  | wait => exact absurd hpc hw
  | extract =>
    have hline : HoldsValues s.line 0 s.lineLen := by simpa only [ControlInv, hpc] using hctl
    obtain ⟨u, hu⟩ := extractFrame_progress hline hll
    obtain ⟨t, ht⟩ := afterExtract_progress u
    exact ⟨t, by rw [controllerStep_of_extract hpc, hu, andThen_next, ht]⟩
  | dispBegin =>
    obtain ⟨-, hview, hend⟩ : 1 ≤ s.work.payLen ∧ HoldsValues s.line s.work.payLo s.work.payLen
        ∧ s.work.payLo + s.work.payLen ≤ s.cfg.inLineMax := by simpa only [ControlInv, hpc] using hctl
    obtain ⟨p, hp⟩ := readBytes_of_holdsValues (sp := lineSpace s.cfg) hend hview
    rw [controllerStep_of_dispBegin hpc, payload, hp, andThen_next]
    cases p with
    | nil => exact ⟨_, rfl⟩
    | cons op text => exact ⟨_, exec_decode_cons op text hpc⟩
  | exec k =>
    obtain ⟨-, -, hplan, -⟩ := (controlInv_exec_iff hpc).mp hctl
    cases hq : s.work.plan[k]? with
    | some q =>
      obtain ⟨hk, -⟩ := List.getElem?_eq_some_iff.mp hq
      have hfive : s.work.plan.length ≤ 5 := hplan ▸ length_planOf_le _ _
      obtain ⟨u, hu⟩ := completeHal_progress (q := q) (href (by simp [hpc])) (hadc (by simp [hpc]) (by simp [hpc]))
        (readIndex_lt_five hk hfive)
      exact ⟨_, (controllerStep_of_entry hpc hq).trans (issueEntry_of_completeHal hu)⟩
    | none => exact ⟨_, controllerStep_of_fits hpc hq (length_currentReply_le hi)⟩
  | reply =>
    exact ⟨_, by rw [controllerStep_of_reply hpc, emitReply, readBytes_out_eq_currentReply hi hpc, andThen_next]⟩
  | dispEnd => exact ⟨_, controllerStep_of_dispEnd hpc⟩

/-! ### The rank falls -/

/-- How many steps a cycle may still take, by its control state. -/
def stepsLeft (s : State) : Nat :=
  match s.pc with
  | .boot0 => 3
  | .boot1 => 2
  | .boot2 => 1
  | .wait => 0
  | .extract => 10
  | .dispBegin => 9
  | .exec k => s.work.plan.length - k + 3
  | .reply => if s.cfg.replyBeforeIndOff then 2 else 1
  | .dispEnd => if s.cfg.replyBeforeIndOff then 1 else 2

theorem stepsLeft_le (hi : ControlInv s) : stepsLeft s ≤ 12 := by
  cases hpc : s.pc with
  | exec k =>
    obtain ⟨-, -, hplan, -⟩ := (controlInv_exec_iff hpc).mp hi
    have hfive : s.work.plan.length ≤ 5 := hplan ▸ length_planOf_le _ _
    simp only [stepsLeft, hpc]
    omega
  | reply | dispEnd => simp only [stepsLeft, hpc]; split <;> omega
  | _ => simp [stepsLeft, hpc]

/-- Every row but WAIT's lowers the rank. -/
theorem ControllerRow.stepsLeft_lt (h : ControllerRow s t) (hw : s.pc ≠ .wait) : stepsLeft t < stepsLeft s := by
  cases h with
  | boot0 hpc | boot1 hpc | boot2 hpc | dropLine hpc | enterDispatch hpc | emptyPayload hpc =>
    simp [stepsLeft, hpc]
  | silentHost hpc | takeLine hpc => exact absurd hpc hw
  | @beginCommand op text hpc =>
    have hfive := length_planOf_le s.cfg (decode (op :: text))
    simp only [stepsLeft, hpc, begun]
    omega
  | transaction hpc hq hu =>
    obtain ⟨-, -, -, -, -, -, -, hwork, -⟩ := completeHal_frame hu
    obtain ⟨hk, -⟩ := List.getElem?_eq_some_iff.mp hq
    simp only [stepsLeft, hpc, hwork]
    omega
  | assemble hpc => cases hp : s.cfg.replyBeforeIndOff <;> simp [stepsLeft, hpc, afterAssembly, hp]
  | transmit hpc => cases hp : s.cfg.replyBeforeIndOff <;> simp [stepsLeft, hpc, afterReply, hp]
  | endDispatch hpc =>
    cases hp : s.cfg.replyBeforeIndOff <;> simp [stepsLeft, hpc, Machine.endDispatch, afterDispEnd, hp]

/-- No row touches the schedule. -/
theorem ControllerRow.schedule_kept (h : ControllerRow s t) : t.env.schedule = s.env.schedule := by
  cases h with
  | boot0 | boot1 | boot2 | silentHost | takeLine | emptyPayload | beginCommand | assemble | transmit => rfl
  | dropLine _ hx | enterDispatch _ hx => obtain ⟨m, wk, rfl, -⟩ := extractFrame_frame hx; rfl
  | transaction _ _ hu =>
    obtain ⟨-, -, -, -, -, -, -, -, -, hsched, -⟩ := completeHal_frame hu
    exact hsched
  | endDispatch => simp [Machine.endDispatch]

/-- With nothing scheduled a cycle is over when its rank is used up. -/
theorem run_to_wait (hi : MachineInv s) (hs : s.env.schedule = []) :
    ∃ n t, n ≤ stepsLeft s ∧ run n s = .next t ∧ t.pc = .wait := by
  induction hrank : stepsLeft s using Nat.strongRecOn generalizing s with
  | ind r ih =>
    by_cases hw : s.pc = .wait
    · exact ⟨0, s, Nat.zero_le _, rfl, hw⟩
    · obtain ⟨t, ht⟩ := controllerStep_progress hi hw
      have hstep : step s = .next t := (step_eq_controllerStep hi.1 hs).trans ht
      have hrow := controllerStep_row ht
      have hlt := hrow.stepsLeft_lt hw
      obtain ⟨n, u, hn, hrun, hu⟩ :=
        ih _ (hrank ▸ hlt) (invariantKeptByStep s t hi hstep) (hrow.schedule_kept.trans hs) rfl
      exact ⟨n + 1, u, by omega, (run_next hstep).trans hrun, hu⟩

end Progress

/-- Settles O56: no rank under the invariant is above twelve. -/
theorem everyCycleReturnsToWait : Obligations.EveryCycleReturnsToWait := by
  intro s hi hs
  obtain ⟨n, t, hn, hrun, ht⟩ := run_to_wait hi hs
  obtain ⟨-, -, -, -, hctl⟩ := hi
  exact ⟨n, t, hn.trans (stepsLeft_le hctl), hrun, ht⟩

end Sys2Proof.Machine

/-! A whole cycle in three parts (spec/41_dispatcher.md R120 to R124, R133): the line is taken, cut out and dispatched;
the transactions of PLAN complete one after the other; the reply is assembled and transmitted and the indicator goes
off. Each command's cycle is then what its transactions do. O36 to O41. -/

namespace Sys2Proof.Machine

/-! ### The transactions of a plan, one after the other -/

/-- The transactions of a plan complete in order; `n` readings are written already (R174, R177). -/
def transact : Nat → List HalReq → State → Result State
  | _, [], s => .next s
  | n, q :: rest, s => andThen (completeHal q n s) (transact (n + q.reads) rest)

/-- The fields a HAL transaction may read or write, TRACE and the parameters aside. -/
structure HalView where
  ind : Bool
  periph : Periph
  rd : Vector Nat 5
  env : Env

def halView (s : State) : HalView := ⟨s.session.ind, s.periph, s.rd, s.env⟩

section Transactions

variable {s t u v : State} {q : HalReq} {plan : List HalReq} {k n : Nat}

/-- A transaction neither reads nor writes the control state and the working registers (R177). -/
theorem completeHal_control (h : completeHal q n s = .next t) (c : Ctrl) (w : Work) :
    completeHal q n { s with pc := c, work := w } = .next { t with pc := c, work := w } := by
  cases q with
  | adcRead ch =>
    obtain ⟨hr, ha, hn, rfl⟩ := completeHal_adcRead_eq_next.mp h
    exact completeHal_adcRead_eq_next.mpr ⟨hr, ha, hn, rfl⟩
  | _ => cases h; rfl

theorem transact_control (h : transact n plan s = .next t) (c : Ctrl) (w : Work) :
    transact n plan { s with pc := c, work := w } = .next { t with pc := c, work := w } := by
  induction plan generalizing n s with
  | nil => cases h; rfl
  | cons q rest ih =>
    obtain ⟨u, hu, h⟩ := andThen_eq_next.mp h
    rw [transact, completeHal_control hu, andThen_next, ih h]

/-- What the transactions of a plan leave alone. -/
theorem transact_frame (h : transact n plan s = .next t) :
    t.cfg = s.cfg ∧ t.session.override = s.session.override ∧ t.work = s.work ∧ t.env.schedule = s.env.schedule := by
  induction plan generalizing n s with
  | nil => cases h; exact ⟨rfl, rfl, rfl, rfl⟩
  | cons q rest ih =>
    obtain ⟨u, hu, h⟩ := andThen_eq_next.mp h
    obtain ⟨hcfg, -, ho, -, -, -, -, hwork, -, hs, -⟩ := completeHal_frame hu
    obtain ⟨hcfg', ho', hwork', hs'⟩ := ih h
    exact ⟨hcfg'.trans hcfg, ho'.trans ho, hwork'.trans hwork, hs'.trans hs⟩

/-- EXEC(k) to EXEC(|PLAN|): one step a transaction (R121). -/
theorem run_plan (hc : configOk s.cfg = true) (hs : s.env.schedule = []) (hpc : s.pc = .exec k) (hk : s.work.k = k)
    (hplan : s.work.plan.drop k = plan) (h : transact (readIndex s.work.plan k) plan s = .next t) :
    run plan.length s =
      .next { t with pc := .exec (k + plan.length), work := { s.work with k := k + plan.length } } := by
  induction plan generalizing s t k with
  | nil =>
    cases h
    rw [List.length_nil, Nat.add_zero, ← hpc]
    subst hk
    rfl
  | cons q rest ih =>
    obtain ⟨u, hu, h⟩ := andThen_eq_next.mp h
    obtain ⟨hcfg, -, -, -, -, -, -, hwork, -, hsched, -⟩ := completeHal_frame hu
    have hq : s.work.plan[k]? = some q := by rw [← List.head?_drop, hplan]; rfl
    have hrest : s.work.plan.drop (k + 1) = rest := by rw [← List.tail_drop, hplan]; rfl
    have hstep : step s = .next { u with pc := .exec (k + 1), work := { s.work with k := k + 1 } } := by
      rw [step_eq_controllerStep hc hs, controllerStep_of_entry hpc hq, issueEntry_of_completeHal hu, hwork]
    rw [← readIndex_succ hq] at h
    have hrun := ih (s := { u with pc := .exec (k + 1), work := { s.work with k := k + 1 } }) (hcfg ▸ hc)
      (hsched.trans hs) rfl rfl hrest (transact_control h _ _)
    rw [List.length_cons, run_next hstep, hrun, Nat.add_right_comm, Nat.add_assoc k]

end Transactions

/-! ### The first three steps -/

/-- DISP_BEGIN of the line `b` with its markers at `j` and `e` (R107, R108). -/
def dispatching (b : Bytes) (later : List Bytes) (j e : Nat) (s : State) : State :=
  goto .dispBegin (framed j e (taken b later s))

section Opening

variable {s : State} {b : Bytes} {later : List Bytes} {i : Instr} {op : Byte} {args : List Token}

theorem decodeLine_eq_ok_iff {nodeId : Byte} :
    decodeLine nodeId b = .ok i ↔ ∃ p, framePayload nodeId b = .ok p ∧ decode p = i := by
  unfold decodeLine
  cases framePayload nodeId b <;> simp

/-- R132: opcode and tokens of a decoded instruction select it again. -/
theorem classify_of_decode {p : Bytes} (hf : (decode p).fields = some (op, args)) : classify op args = decode p := by
  cases p with
  | nil => cases hf
  | cons c text =>
    rw [decode, classify_fields] at hf
    cases hf
    rfl

theorem trace_begun_dispatching (plan : List HalReq) (sets : Bool) (j e : Nat) :
    (begun op args plan sets (dispatching b later j e s)).trace =
      s.trace ++ [.readLine b] ++ if s.session.override then [] else [.indSet true] := rfl

/-- R120, R121: the line is taken, its frame cut out, its command begun. -/
theorem ReadyFor.run_opening (h : ReadyFor s b later) (hd : decodeLine s.cfg.nodeId b = .ok i)
    (hf : i.fields = some (op, args)) : ∃ j e,
      run 3 s = .next (begun op args (planOf s.cfg i) (writesOverride i) (dispatching b later j e s)) := by
  obtain ⟨p, hp, rfl⟩ := decodeLine_eq_ok_iff.mp hd
  obtain ⟨j, e, hsc, rfl⟩ := framePayload_eq_ok_iff.mp hp
  have hlen : e - j - 2 ≠ 0 := fun hz => by simp [hz, decode, Instr.fields] at hf
  have hx := h.extracting_taken
  have hextract : step (taken b later s) = .next (dispatching b later j e s) := by
    rw [hx.step_of_addressed hsc, if_neg hlen, dispatching]
  have hpayload : payload (dispatching b later j e s) = .next ((b.drop (j + 2)).take (e - j - 2)) :=
    hx.payload_framed hsc (by omega)
  have hbegin := (stepRunsDecodedCommand (dispatching b later j e s) hx.cfg hx.schedule).1 _ rfl hpayload
  rw [exec_of_dispBegin hf rfl] at hbegin
  exact ⟨j, e, by rw [run_next h.step_eq, run_next hextract, run_next hbegin]; rfl⟩

end Opening

/-! ### The last three steps -/

/-- What a cycle adds to TRACE after its transactions (R121, R123). -/
def closingEvents (c : Config) (override : Bool) (reply : Bytes) : List Event :=
  if c.replyBeforeIndOff then .writeLine reply :: (if override then [] else [.indSet false])
  else (if override then [] else [.indSet false]) ++ [.writeLine reply]

theorem cycleEvents_eq (c : Config) (before after : Bool) (handler : List Event) (reply : Bytes) :
    cycleEvents c before after handler reply =
      (if before then [] else [.indSet true]) ++ handler ++ closingEvents c after reply := rfl

/-- What REPLY leaves (R121). -/
def transmitted (reply : Bytes) (s : State) : State :=
  { s with pc := afterReply s.cfg, trace := s.trace ++ [.writeLine reply] }

/-- What the last three steps of a cycle leave (R121, R123, R133). -/
def answered (s : State) : State :=
  { s with
    pc := .wait
    session := { s.session with ind := s.session.override && s.session.ind }
    out := s.out.setBytes 0 (currentReply s)
    outLen := (currentReply s).length
    trace := s.trace ++ closingEvents s.cfg s.session.override (currentReply s) }

section Closing

variable {s : State} {k : Nat}

/-- R133: past PLAN the reply is assembled. -/
theorem step_of_planDone (hc : configOk s.cfg = true) (hs : s.env.schedule = []) (hpc : s.pc = .exec k)
    (hq : s.work.plan[k]? = none) (hfit : (currentReply s).length ≤ s.cfg.outLineMax) :
    step s = .next (assembled s) := by
  rw [step_eq_controllerStep hc hs, controllerStep_of_fits hpc hq hfit]

theorem step_of_reply {reply : Bytes} (hc : configOk s.cfg = true) (hs : s.env.schedule = []) (hpc : s.pc = .reply)
    (hlen : s.outLen = reply.length) (hfit : reply.length ≤ s.cfg.outLineMax) (hout : Holds s.out 0 reply) :
    step s = .next (transmitted reply s) := by
  rw [step_eq_controllerStep hc hs, controllerStep_of_reply hpc, emitReply_of_holds hlen hfit hout, transmitted]

theorem step_of_dispEnd (hc : configOk s.cfg = true) (hs : s.env.schedule = []) (hpc : s.pc = .dispEnd) :
    step s = .next (ended s) := by
  rw [step_eq_controllerStep hc hs, controllerStep_of_dispEnd hpc, endDispatch_eq_ended]

/-- R121: the reply goes out before the indicator goes off, or after, by the parameter. -/
theorem run_closing (hc : configOk s.cfg = true) (hs : s.env.schedule = []) (hpc : s.pc = .exec k)
    (hq : s.work.plan[k]? = none) (hfit : (currentReply s).length ≤ s.cfg.outLineMax) :
    run 3 s = .next (answered s) := by
  have hholds := holds_setBytes s.out 0 (currentReply s)
  rw [run_next (step_of_planDone hc hs hpc hq hfit)]
  cases hp : s.cfg.replyBeforeIndOff with
  | true =>
    have hreply : (assembled s).pc = .reply := by simp [assembled, afterAssembly, hp]
    have hend : (transmitted (currentReply s) (assembled s)).pc = .dispEnd := by
      simp [transmitted, assembled, afterReply, hp]
    rw [run_next (step_of_reply (s := assembled s) hc hs hreply rfl hfit hholds),
      run_next (step_of_dispEnd (s := transmitted (currentReply s) (assembled s)) hc hs hend), run_zero]
    cases ho : s.session.override <;>
      simp [answered, ended, transmitted, assembled, closingEvents, afterDispEnd, hp, ho]
  | false =>
    have hend : (assembled s).pc = .dispEnd := by simp [assembled, afterAssembly, hp]
    have hreply : (ended (assembled s)).pc = .reply := by simp [ended, assembled, afterDispEnd, hp]
    rw [run_next (step_of_dispEnd (s := assembled s) hc hs hend),
      run_next (step_of_reply (s := ended (assembled s)) hc hs hreply rfl hfit hholds), run_zero]
    cases ho : s.session.override <;>
      simp [answered, ended, transmitted, assembled, closingEvents, afterReply, hp, ho]

end Closing

/-! ### The whole cycle -/

/-- What a command's transactions find: the indicator is on unless OVERRIDE was set before (R122). -/
def openedView (later : List Bytes) (s : State) : HalView where
  ind := s.session.ind || !s.session.override
  periph := s.periph
  rd := s.rd
  env := { s.env with lines := later }

/-- After the opening of a cycle from `s` the transactions of `i` leave `view` and record `events`. -/
def Transacts (s : State) (later : List Bytes) (i : Instr) (view : HalView) (events : List Event) : Prop :=
  ∀ u, u.cfg = s.cfg → halView u = openedView later s →
    ∃ v, transact 0 (planOf s.cfg i) u = .next v ∧ halView v = view ∧ v.trace = u.trace ++ events

/-- Under an override the indicator is what it was (R122). -/
theorem override_and_openedView_ind (later : List Bytes) (s : State) :
    (s.session.override && (openedView later s).ind) = (s.session.override && s.session.ind) := by
  cases ho : s.session.override <;> simp [openedView, ho]

/-- What a cycle from `s` has come to when the transactions of its command `i` are done. -/
structure PlanDone (s : State) (b : Bytes) (i : Instr) (op : Byte) (view : HalView) (events : List Event) (u : State) :
    Prop where
  pc : u.pc = .exec (planOf s.cfg i).length
  plan : u.work.plan = planOf s.cfg i
  cfg : u.cfg = s.cfg
  schedule : u.env.schedule = []
  override : u.session.override = (s.session.override || writesOverride i)
  sees : halView u = view
  reply : currentReply u = replyBytes op (dataOf s.cfg view.rd i)
  trace : u.trace = s.trace ++ .readLine b :: ((if s.session.override then [] else [.indSet true]) ++ events)

section Cycle

variable {s : State} {b : Bytes} {later : List Bytes} {i : Instr} {op : Byte} {args : List Token} {view : HalView}
  {events : List Event}

/-- R120 to R122: the first three steps, then one for each transaction. -/
theorem ReadyFor.run_planDone (h : ReadyFor s b later) (hd : decodeLine s.cfg.nodeId b = .ok i)
    (hf : i.fields = some (op, args)) (hplan : Transacts s later i view events) :
    ∃ u, run (3 + (planOf s.cfg i).length) s = .next u ∧ PlanDone s b i op view events u := by
  obtain ⟨j, e, hopen⟩ := h.run_opening hd hf
  obtain ⟨v, hv, rfl, htrace⟩ :=
    hplan (begun op args (planOf s.cfg i) (writesOverride i) (dispatching b later j e s)) rfl rfl
  obtain ⟨hcfg, ho, hwork, hs⟩ := transact_frame hv
  obtain ⟨-, hc, -, -, hsched⟩ := id h
  have hrun := run_plan (s := begun op args (planOf s.cfg i) (writesOverride i) (dispatching b later j e s)) (k := 0)
    (plan := planOf s.cfg i) hc hsched rfl rfl rfl hv
  have hboth := (run_add 3 _ s).trans ((congrArg (andThen · _) hopen).trans hrun)
  refine ⟨_, hboth, ?_, rfl, hcfg, hs.trans hsched, ho, rfl, ?_, ?_⟩
  · exact congrArg Ctrl.exec (Nat.zero_add _)
  · obtain ⟨p, -, rfl⟩ := decodeLine_eq_ok_iff.mp hd
    rw [currentReply, currentInstr]
    exact congrArg₂ (fun c i => replyBytes op (dataOf c v.rd i)) hcfg (classify_of_decode hf)
  · rw [trace_begun_dispatching, List.append_assoc, List.append_assoc, List.singleton_append] at htrace
    exact htrace

/-- R121, R123, R133: the last three steps. -/
theorem PlanDone.run_closing {u : State} (h : PlanDone s b i op view events u) (hc : configOk s.cfg = true)
    (hfit : 6 + (dataOf s.cfg view.rd i).length ≤ s.cfg.outLineMax) : run 3 u = .next (answered u) := by
  refine Machine.run_closing (h.cfg ▸ hc) h.schedule h.pc (by simp [h.plan]) ?_
  rwa [h.reply, h.cfg, replyBytes_length]

/-- R120 to R124, R133: a command's cycle, from what its transactions do to the fields they see and to TRACE. -/
theorem ReadyFor.run_cycle (h : ReadyFor s b later) (hd : decodeLine s.cfg.nodeId b = .ok i)
    (hf : i.fields = some (op, args)) (hplan : Transacts s later i view events)
    (hrd : ∀ args, i = .a args → ∀ j (_ : j < 5), view.rd[j] ≤ s.cfg.adcMax) :
    ∃ t, run (3 + (planOf s.cfg i).length + 3) s = .next t ∧ t.pc = .wait
      ∧ t.trace = s.trace ++ .readLine b :: cycleEvents s.cfg s.session.override
          (s.session.override || writesOverride i) events (replyBytes op (dataOf s.cfg view.rd i))
      ∧ t.session = { override := s.session.override || writesOverride i
                      ind := (s.session.override || writesOverride i) && view.ind }
      ∧ t.periph = view.periph ∧ t.rd = view.rd ∧ t.cfg = s.cfg ∧ t.env = view.env := by
  obtain ⟨-, hc, -⟩ := id h
  obtain ⟨u, hrun, hu⟩ := h.run_planDone hd hf hplan
  have hclose := hu.run_closing hc (reply_fits hc hrd)
  have hsession := hu.override
  have htrace := hu.trace
  obtain rfl := hu.sees
  refine ⟨answered u, by rw [run_add, hrun, andThen_next, hclose], rfl, ?_, ?_, rfl, rfl, hu.cfg, rfl⟩
  · simp only [answered, htrace, hu.cfg, hsession, hu.reply, cycleEvents_eq, List.append_assoc, List.cons_append]
  · simp only [answered, hsession]
    rfl

/-- The cycle of a command that leaves OVERRIDE and the indicator alone. -/
theorem ReadyFor.run_cycle_of_indicator_kept (h : ReadyFor s b later) (hd : decodeLine s.cfg.nodeId b = .ok i)
    (hf : i.fields = some (op, args)) (hplan : Transacts s later i view events)
    (hrd : ∀ args, i = .a args → ∀ j (_ : j < 5), view.rd[j] ≤ s.cfg.adcMax)
    (hw : writesOverride i = false) (hind : view.ind = (openedView later s).ind) :
    ∃ t, run (3 + (planOf s.cfg i).length + 3) s = .next t ∧ t.pc = .wait
      ∧ t.trace = s.trace ++ .readLine b :: cycleEvents s.cfg s.session.override s.session.override events
          (replyBytes op (dataOf s.cfg view.rd i))
      ∧ t.session = { override := s.session.override, ind := s.session.override && s.session.ind }
      ∧ t.periph = view.periph ∧ t.rd = view.rd ∧ t.cfg = s.cfg ∧ t.env = view.env := by
  have hcycle := h.run_cycle hd hf hplan hrd
  rwa [hw, Bool.or_false, hind, override_and_openedView_ind] at hcycle

/-- The cycle of a command without transactions and session write. -/
theorem ReadyFor.run_cycle_of_plan_nil (h : ReadyFor s b later) (hd : decodeLine s.cfg.nodeId b = .ok i)
    (hf : i.fields = some (op, args)) (hplan : planOf s.cfg i = []) (hw : writesOverride i = false) :
    ∃ t, run 6 s = .next t ∧ t.pc = .wait
      ∧ t.trace = s.trace ++ .readLine b :: cycleEvents s.cfg s.session.override s.session.override []
          (replyBytes op (dataOf s.cfg s.rd i))
      ∧ t.session = { override := s.session.override, ind := s.session.override && s.session.ind }
      ∧ t.periph = s.periph ∧ t.rd = s.rd ∧ t.cfg = s.cfg ∧ t.env = { s.env with lines := later } := by
  have hnone : Transacts s later i (openedView later s) [] :=
    fun u _ hu => ⟨u, by rw [hplan]; rfl, hu, (List.append_nil _).symm⟩
  have hcycle := h.run_cycle_of_indicator_kept hd hf hnone (fun args ha => by simp [ha, planOf] at hplan) hw rfl
  rwa [hplan] at hcycle

end Cycle

/-- Settles O36: `v` plans nothing. -/
theorem versionCycle : Obligations.VersionCycle := fun _ _ _ args h hd =>
  h.run_cycle_of_plan_nil (i := .v args) hd rfl rfl rfl

/-- Settles O38: `L` without a value plans nothing and leaves OVERRIDE. -/
theorem overrideNoValueCycle : Obligations.OverrideNoValueCycle := fun _ _ _ h hd =>
  h.run_cycle_of_plan_nil (i := .lNoValue) hd rfl rfl rfl

/-- R142: the one transaction of `L`. -/
theorem transacts_l (s : State) (later : List Bytes) (value : Token) (rest : List Token) :
    Transacts s later (.l value rest) { openedView later s with ind := lBit value } [.indSet (lBit value)] :=
  fun _ _ hu => ⟨_, rfl, by rw [← hu]; rfl, rfl⟩

/-- Settles O37: `L` sets the indicator to the value's low bit, and OVERRIDE keeps it there. -/
theorem overrideCycle : Obligations.OverrideCycle := by
  intro s b later value rest h hd
  have hcycle := h.run_cycle (i := .l value rest) hd rfl (transacts_l s later value rest) nofun
  rw [dataOf, dec_lBit, writesOverride, Bool.or_true, Bool.true_and] at hcycle
  exact hcycle

/-- Peripheral State as `w` with the output on leaves it (R171). -/
def referenceOn (level : BitVec 8) (p : Periph) : Periph :=
  { refOn := true, adcOn := p.adcOn, dacOutOn := true, dacLevel := level }

/-- R171: the three transactions of `w` with the output on. -/
theorem transacts_w (s : State) (later : List Bytes) (level : Token) (flag : Option Token) (rest : List Token) :
    Transacts s later (.w level flag rest)
      { openedView later s with periph := referenceOn (wLevel level) (openedView later s).periph }
      [.refInit, .dacSetLevel (wLevel level), .refOutEn true] :=
  fun _ _ hu => ⟨_, rfl, by rw [← hu]; rfl, by simp⟩

/-- Settles O40: `w` with the output on. -/
theorem referenceOnCycle : Obligations.ReferenceOnCycle := by
  intro s b later level flag rest h hd
  have hf : (Instr.w level flag rest).fields = some (chW, level :: (flag.toList ++ rest)) := by cases flag <;> rfl
  obtain ⟨t, hrun, hpc, htrace, hsession, hperiph, hrest⟩ :=
    h.run_cycle_of_indicator_kept hd hf (transacts_w s later level flag rest) nofun rfl rfl
  exact ⟨t, hrun, hpc, htrace, hperiph, hsession, hrest⟩

/-- R172: the one transaction of `w` with the output off. -/
theorem transacts_wOff (s : State) (later : List Bytes) (level flag : Token) (rest : List Token) :
    Transacts s later (.wOff level flag rest)
      { openedView later s with periph := { (openedView later s).periph with dacOutOn := false } }
      [.refOutEn false] :=
  fun _ _ hu => ⟨_, rfl, by rw [← hu]; rfl, rfl⟩

/-- Settles O41: `w` with the output off. -/
theorem referenceOffCycle : Obligations.ReferenceOffCycle := by
  intro s b later level flag rest h hd
  obtain ⟨t, hrun, hpc, htrace, hsession, hperiph, hrest⟩ :=
    h.run_cycle_of_indicator_kept hd rfl (transacts_wOff s later level flag rest) nofun rfl rfl
  exact ⟨t, hrun, hpc, htrace, hperiph, hsession, hrest⟩

/-! ### The readings of `a` -/

/-- The state after the five reads of `a`, in channel order (R174). -/
def afterReads (s : State) : State :=
  storeReading s.cfg.channels[4] 4 <| storeReading s.cfg.channels[3] 3 <| storeReading s.cfg.channels[2] 2 <|
    storeReading s.cfg.channels[1] 1 <| storeReading s.cfg.channels[0] 0 s

/-- The five coming readings (R33). -/
def comingReadings (s : State) : Vector Nat 5 :=
  #v[readingNo s 0, readingNo s 1, readingNo s 2, readingNo s 3, readingNo s 4]

/-- Their events, in channel order (R174). -/
def comingReads (s : State) : List Event :=
  [.adcRead s.cfg.channels[0] (readingNo s 0), .adcRead s.cfg.channels[1] (readingNo s 1),
    .adcRead s.cfg.channels[2] (readingNo s 2), .adcRead s.cfg.channels[3] (readingNo s 3),
    .adcRead s.cfg.channels[4] (readingNo s 4)]

section Readings

variable {s u : State} {later : List Bytes}

theorem readingNo_le (s : State) (n : Nat) : readingNo s n ≤ s.cfg.adcMax := nextReading_le _

theorem comingReadings_le (s : State) (j : Nat) (hj : j < 5) : (comingReadings s)[j] ≤ s.cfg.adcMax := by
  match j, hj with
  | 0, _ | 1, _ | 2, _ | 3, _ | 4, _ => exact readingNo_le s _

/-- The host's lines do not touch the readings. -/
theorem envAfter_lines (n : Nat) (e : Env) (later : List Bytes) :
    envAfter n { e with lines := later } = { envAfter n e with lines := later } := by
  induction n generalizing e with
  | zero => rfl
  | succ n ih =>
    have hone : ({ e with lines := later } : Env).afterReading = { e.afterReading with lines := later } := by
      cases hr : e.readings <;> simp [Env.afterReading, hr]
    rw [envAfter, hone, ih, envAfter]

theorem readingNo_of_lines (hcfg : u.cfg = s.cfg) (henv : u.env = { s.env with lines := later }) (n : Nat) :
    readingNo u n = readingNo s n := by
  rw [readingNo, readingNo, henv, envAfter_lines]
  simp only [nextReading, hcfg]

theorem completeHal_adcRead_of_on {ch : ChannelId} {i : Nat} (hr : s.periph.refOn = true)
    (ha : s.periph.adcOn = true) (hi : i < 5) : completeHal (.adcRead ch) i s = .next (storeReading ch i s) :=
  completeHal_adcRead_eq_next.mpr ⟨hr, ha, hi, rfl⟩

/-- Each of the five reads writes its own register. -/
theorem setIfInBounds_all (rd : Vector Nat 5) (r0 r1 r2 r3 r4 : Nat) :
    ((((rd.setIfInBounds 0 r0).setIfInBounds 1 r1).setIfInBounds 2 r2).setIfInBounds 3 r3).setIfInBounds 4 r4 =
      #v[r0, r1, r2, r3, r4] := by
  rcases rd with ⟨⟨l⟩, hl⟩
  match l, hl with
  | [_, _, _, _, _], _ => rfl

/-- R144, R174: `a` reads the five channels in order, each reading into its own register. -/
theorem transact_planOf_a (args : List Token) (hr : s.periph.refOn = true) (ha : s.periph.adcOn = true) :
    ∃ t, transact 0 (planOf s.cfg (.a args)) s = .next t
      ∧ halView t = { halView s with rd := comingReadings s, env := envAfter 5 s.env }
      ∧ t.trace = s.trace ++ comingReads s := by
  refine ⟨afterReads s, ?_, ?_, ?_⟩
  · simp [afterReads, planOf, transact, HalReq.reads, completeHal_adcRead_of_on, hr, ha]
  · have hrd : (afterReads s).rd = comingReadings s := setIfInBounds_all ..
    rw [halView, hrd]
    rfl
  · simp only [afterReads, storeReading_trace, List.append_assoc]
    rfl

/-- R144: what the five reads leave, the host's coming lines aside. -/
theorem transacts_a (args : List Token) (hr : s.periph.refOn = true) (ha : s.periph.adcOn = true) :
    Transacts s later (.a args)
      { openedView later s with rd := comingReadings s, env := { envAfter 5 s.env with lines := later } }
      (comingReads s) := by
  intro u hcfg hu
  obtain ⟨-, hperiph, -, henv⟩ := HalView.mk.inj hu
  have hreading := readingNo_of_lines hcfg henv
  obtain ⟨v, hv, hview, htrace⟩ := transact_planOf_a (s := u) args (hperiph ▸ hr) (hperiph ▸ ha)
  refine ⟨v, hcfg ▸ hv, hview.trans ?_, htrace.trans ?_⟩
  · simp only [hu, henv, envAfter_lines, comingReadings, hreading]
  · simp only [comingReads, hcfg, hreading]

end Readings

/-- Settles O39: `a` from the state boot leaves. -/
theorem analogCycle : Obligations.AnalogCycle := by
  intro s b later args h hd hr ha
  obtain ⟨t, hrun, hpc, htrace, hsession, hperiph, hrd, hcfg, henv⟩ :=
    h.run_cycle_of_indicator_kept hd rfl (transacts_a args hr ha) (fun _ _ => comingReadings_le s) rfl rfl
  rw [dataOf_a] at htrace
  exact ⟨t, _, _, _, _, _, hrun, hpc, rfl, rfl, rfl, rfl, rfl, readingNo_le s 0, readingNo_le s 1, readingNo_le s 2,
    readingNo_le s 3, readingNo_le s 4, htrace, hrd, hsession, hperiph, hcfg, henv⟩

end Sys2Proof.Machine

/-! The shadow fields (spec/42_commands.md R140, O59), and the cycles of the commands that fail in-band (R147, R148, O42
and O43). -/

namespace Sys2Proof.Machine

/-! ### The shadow fields -/

/-- One condition decides both outcomes. -/
theorem sameOutcome_ite {rel : State → State → Prop} {x y x' y' : Result State} (p : Prop) [Decidable p]
    (ht : SameOutcome rel x x') (hf : SameOutcome rel y y') :
    SameOutcome rel (if p then x else y) (if p then x' else y') := by
  split
  · exact ht
  · exact hf

/-- `s` with other values in IND, DAC_OUT_ON and DAC_LEVEL (R140). -/
def withShadow (ind dacOutOn : Bool) (dacLevel : BitVec 8) (s : State) : State :=
  { s with session := { s.session with ind := ind }
           periph := { s.periph with dacOutOn := dacOutOn, dacLevel := dacLevel } }

section Shadow

variable {s t : State}

@[simp] theorem withShadow_cfg (ind dacOutOn : Bool) (dacLevel : BitVec 8) (s : State) :
    (withShadow ind dacOutOn dacLevel s).cfg = s.cfg := rfl

@[simp] theorem withShadow_env (ind dacOutOn : Bool) (dacLevel : BitVec 8) (s : State) :
    (withShadow ind dacOutOn dacLevel s).env = s.env := rfl

@[simp] theorem withShadow_override (ind dacOutOn : Bool) (dacLevel : BitVec 8) (s : State) :
    (withShadow ind dacOutOn dacLevel s).session.override = s.session.override := rfl

theorem SameButShadow.exists_withShadow (h : SameButShadow s t) :
    ∃ ind dacOutOn dacLevel, t = withShadow ind dacOutOn dacLevel s := ⟨_, _, _, h⟩

theorem SameButShadow.goto (h : SameButShadow s t) (c : Ctrl) : SameButShadow (goto c s) (goto c t) := by
  obtain ⟨ind, dacOutOn, dacLevel, rfl⟩ := h.exists_withShadow
  rfl

theorem SameButShadow.withSchedule (h : SameButShadow s t) (moves : List EnvMove) :
    SameButShadow (withSchedule moves s) (withSchedule moves t) := by
  obtain ⟨ind, dacOutOn, dacLevel, rfl⟩ := h.exists_withShadow
  rfl

/-! ### The rows of the controller -/

/-- A transaction may write a shadow field and reads none (R177); `adcRead` looks at the other two flags (R179). -/
theorem SameButShadow.completeHal (h : SameButShadow s t) (q : HalReq) (i : Nat) :
    SameOutcome SameButShadow (completeHal q i s) (completeHal q i t) := by
  obtain ⟨ind, dacOutOn, dacLevel, rfl⟩ := h.exists_withShadow
  cases q with
  | adcRead ch => exact sameOutcome_ite (s.periph.refOn && s.periph.adcOn) (sameOutcome_ite (i < 5) rfl rfl) rfl
  | _ => rfl

theorem SameButShadow.bootStep (h : SameButShadow s t) (q : HalReq) (after : Ctrl) :
    SameOutcome SameButShadow (bootStep q after s) (bootStep q after t) :=
  (h.completeHal q 0).andThen fun _ _ huv => huv.goto after

theorem SameButShadow.issueEntry (h : SameButShadow s t) (k : Nat) (q : HalReq) :
    SameOutcome SameButShadow (issueEntry k q s) (issueEntry k q t) := by
  unfold Machine.issueEntry
  obtain ⟨ind, dacOutOn, dacLevel, rfl⟩ := h.exists_withShadow
  refine (h.completeHal q (readIndex s.work.plan k)).andThen fun u v huv => ?_
  obtain ⟨ind, dacOutOn, dacLevel, rfl⟩ := huv.exists_withShadow
  rfl

/-- WAIT looks at the host's lines and the parameters alone (R224). -/
theorem SameButShadow.waitStep (h : SameButShadow s t) : SameOutcome SameButShadow (waitStep s) (waitStep t) := by
  obtain ⟨ind, dacOutOn, dacLevel, rfl⟩ := h.exists_withShadow
  unfold Machine.waitStep
  rw [withShadow_env]
  cases s.env.lines with
  | nil => exact h
  | cons b later => exact sameOutcome_ite (deliverable s.cfg b) rfl rfl

theorem SameButShadow.extractFrame (h : SameButShadow s t) :
    SameOutcome SameButShadow (extractFrame s) (extractFrame t) := by
  obtain ⟨ind, dacOutOn, dacLevel, rfl⟩ := h.exists_withShadow
  refine sameOutcome_andThen_self (readBytes (lineSpace s.cfg) s.line 0 s.lineLen) fun line => ?_
  rw [withShadow_cfg]
  cases scanFrame s.cfg.nodeId (window line) with
  | noStart | noEnd | notForMe => rfl
  | addressed i e => exact sameOutcome_andThen_self (writeBytes (lineSpace s.cfg) s.line e [chNul]) fun _ => rfl

theorem SameButShadow.afterExtract (h : SameButShadow s t) :
    SameOutcome SameButShadow (afterExtract s) (afterExtract t) := by
  obtain ⟨ind, dacOutOn, dacLevel, rfl⟩ := h.exists_withShadow
  exact sameOutcome_ite (s.work.fres = .addressed) (sameOutcome_ite (s.work.payLen = 0) rfl rfl) rfl

/-- A command is begun from OVERRIDE and the payload (R121, R122). -/
theorem SameButShadow.dispBegin (h : SameButShadow s t) (hpc : s.pc = .dispBegin) (p : Bytes) :
    SameOutcome SameButShadow (exec (decode p) s) (exec (decode p) t) := by
  obtain ⟨ind, dacOutOn, dacLevel, rfl⟩ := h.exists_withShadow
  cases p with
  | nil => rfl
  | cons op text =>
    rw [exec_decode_cons op text hpc, exec_decode_cons (s := withShadow ind dacOutOn dacLevel s) op text hpc]
    rfl

/-- Whether the indicator goes off is decided by OVERRIDE alone (R123). -/
theorem SameButShadow.endDispatch (h : SameButShadow s t) : SameButShadow (endDispatch s) (endDispatch t) := by
  obtain ⟨ind, dacOutOn, dacLevel, rfl⟩ := h.exists_withShadow
  refine SameButShadow.goto ?_ (afterDispEnd s.cfg)
  unfold autoIndicate
  rw [withShadow_override]
  split
  · exact h
  · rfl

/-- No row of the controller reads a shadow field. -/
theorem SameButShadow.controllerStep (h : SameButShadow s t) :
    SameOutcome SameButShadow (controllerStep s) (controllerStep t) := by
  obtain ⟨ind, dacOutOn, dacLevel, ht⟩ := h.exists_withShadow
  have hpc' : t.pc = s.pc := ht ▸ rfl
  cases hpc : s.pc with
  | boot0 | boot1 | boot2 =>
    simp only [Machine.controllerStep, hpc', hpc]
    exact h.bootStep _ _
  | wait =>
    rw [controllerStep_of_wait hpc, controllerStep_of_wait (hpc'.trans hpc)]
    exact h.waitStep
  | extract =>
    rw [controllerStep_of_extract hpc, controllerStep_of_extract (hpc'.trans hpc)]
    exact h.extractFrame.andThen fun _ _ => SameButShadow.afterExtract
  | dispBegin =>
    rw [controllerStep_of_dispBegin hpc, controllerStep_of_dispBegin (hpc'.trans hpc),
      show payload t = payload s from ht ▸ rfl]
    exact sameOutcome_andThen_self _ (h.dispBegin hpc)
  | exec k =>
    have hwork : t.work = s.work := ht ▸ rfl
    cases hq : s.work.plan[k]? with
    | some q =>
      rw [controllerStep_of_entry hpc hq, controllerStep_of_entry (hpc'.trans hpc) (hwork ▸ hq)]
      exact h.issueEntry k q
    | none =>
      rw [controllerStep_of_assembly hpc hq, controllerStep_of_assembly (hpc'.trans hpc) (hwork ▸ hq), ht]
      exact sameOutcome_andThen_self (writeBytes (outSpace s.cfg) s.out 0 (currentReply s)) fun _ => rfl
  | reply =>
    rw [controllerStep_of_reply hpc, controllerStep_of_reply (hpc'.trans hpc), ht]
    exact sameOutcome_andThen_self (readBytes (outSpace s.cfg) s.out 0 s.outLen) fun _ => rfl
  | dispEnd =>
    rw [controllerStep_of_dispEnd hpc, controllerStep_of_dispEnd (hpc'.trans hpc)]
    exact h.endDispatch

end Shadow

/-- Settles O59: the environment's move is chosen by fields both states share, the controller's row reads no shadow
field, and a reset writes all three. -/
theorem shadowFieldsAreNotRead : Obligations.ShadowFieldsAreNotRead := by
  intro s t h
  obtain ⟨ind, dacOutOn, dacLevel, rfl⟩ := h.exists_withShadow
  unfold step scheduledStep
  rw [withShadow_env]
  cases s.env.schedule with
  | nil => exact sameOutcome_ifConfigured s.cfg h.controllerStep
  | cons move moves =>
    cases move with
    | proceed => exact sameOutcome_ifConfigured s.cfg (h.withSchedule moves).controllerStep
    | hang => exact sameOutcome_ifConfigured s.cfg (sameOutcome_ite (issuesTransaction s) h h.controllerStep)
    | reset => exact sameOutcome_ifConfigured s.cfg rfl

/-! ### Commands that fail in-band -/

/-- Settles O42: `w` without an argument plans nothing. -/
theorem referenceMissingCycle : Obligations.ReferenceMissingCycle := fun _ _ _ h hd =>
  h.run_cycle_of_plan_nil (i := .wMissing) hd rfl rfl rfl

/-- Settles O43: an unknown opcode plans nothing, and the reply carries it. -/
theorem unknownCycle : Obligations.UnknownCycle := fun _ _ _ op args h hd =>
  h.run_cycle_of_plan_nil (i := .unknown op args) hd rfl rfl rfl

end Sys2Proof.Machine

/-! The peripheral sequencer (spec/43_sequencer.md): which HAL transactions a step may complete (R178, R179, O47), and
what the transactions of `setReference` do to Peripheral State (R171 to R173, O60). -/

namespace Sys2Proof.Machine

/-! ### No close, and no read without power -/

/-- The events R178 and R179 allow in a state: no close, and an `adcRead` only with the reference and the ADC on. -/
def MayRecord (s : State) : Event → Prop
  | .refClose => False
  | .adcClose => False
  | .adcRead _ _ => s.periph.refOn = true ∧ s.periph.adcOn = true
  | _ => True

section Recorded

variable {s t : State} {e : Event}

/-- A transaction that is no close records an allowed event: `adcRead` completes only with the power on (R179). -/
theorem completeHal_mayRecord {q : HalReq} {i : Nat} (h : completeHal q i s = .next t)
    (hq : q ≠ .referenceClose ∧ q ≠ .adcClose) : ∃ e, t.trace = s.trace ++ [e] ∧ MayRecord s e := by
  cases q with
  | adcRead ch =>
    obtain ⟨hr, ha, -, rfl⟩ := completeHal_adcRead_eq_next.mp h
    exact ⟨_, storeReading_trace s ch i, hr, ha⟩
  | referenceClose => exact absurd rfl hq.1
  | adcClose => exact absurd rfl hq.2
  | referenceInit | adcInit | dacSetLevel | referenceOutputEnable | indicatorSet => cases h; exact ⟨_, rfl, trivial⟩

/-- An automatic indicator transaction is allowed in every state (R122, R123). -/
theorem mayRecord_of_mem_autoIndicate {override b : Bool} (he : e ∈ if override then [] else [Event.indSet b]) :
    MayRecord s e := by
  obtain rfl := List.mem_singleton.mp (List.mem_ite_nil_left.mp he).2
  trivial

/-- A row of the controller records allowed events only: PLAN is the dispatched command's, which holds no close. -/
theorem ControllerRow.mayRecord (h : ControllerRow s t) (hi : ControlInv s) :
    ∃ new, t.trace = s.trace ++ new ∧ ∀ e ∈ new, MayRecord s e := by
  cases h with
  | boot0 | boot1 | boot2 | takeLine | transmit => exact ⟨_, rfl, List.forall_mem_singleton.mpr trivial⟩
  | silentHost | emptyPayload | assemble => exact ⟨[], (List.append_nil _).symm, nofun⟩
  | dropLine _ hx | enterDispatch _ hx =>
    obtain ⟨m, wk, rfl, -⟩ := extractFrame_frame hx
    exact ⟨[], (List.append_nil _).symm, nofun⟩
  | beginCommand => exact ⟨_, rfl, fun _ => mayRecord_of_mem_autoIndicate⟩
  | transaction hpc hq hu =>
    obtain ⟨e, htrace, he⟩ :=
      completeHal_mayRecord hu (not_close_of_mem_planOf (mem_planOf_of_controlInv hi hpc hq))
    exact ⟨[e], htrace, List.forall_mem_singleton.mpr he⟩
  | endDispatch => exact ⟨_, autoIndicate_trace s false, fun _ => mayRecord_of_mem_autoIndicate⟩

/-- Under the invariant the event a step appends is an allowed one; a hung step and a reset append none. -/
theorem mayRecord_of_step (hi : MachineInv s) (h : step s = .next t) (ht : t.trace = s.trace ++ [e]) :
    MayRecord s e := by
  obtain ⟨-, -, -, -, hctl⟩ := hi
  obtain ⟨-, rfl | ⟨moves, hrow⟩ | ⟨moves, -, rfl⟩⟩ := step_row h
  · simp at ht
  · obtain ⟨new, htrace, hnew⟩ := hrow.mayRecord hctl
    obtain rfl := List.append_cancel_left (htrace.symm.trans ht)
    exact hnew e (List.mem_singleton_self e)
  · simp [State.reset] at ht

end Recorded

/-- Settles O47: neither close event is allowed in any state, and an `adcRead` only with the power on. -/
theorem referenceAndAdcNeverClosed : Obligations.ReferenceAndAdcNeverClosed := fun _ _ hi h =>
  ⟨mayRecord_of_step hi h, mayRecord_of_step hi h, fun _ _ => mayRecord_of_step hi h⟩

/-! ### setReference -/

/-- What the transactions of `setReference` make of Peripheral State (R171, R172). -/
def Periph.setReference (level : BitVec 8) (enabled : Bool) (p : Periph) : Periph :=
  if enabled then referenceOn level p else { p with dacOutOn := false }

/-- R173: what it writes does not depend on what it overwrites. -/
theorem Periph.setReference_setReference (level : BitVec 8) (enabled : Bool) (p : Periph) :
    (p.setReference level enabled).setReference level enabled = p.setReference level enabled := by
  cases enabled <;> rfl

/-- The transactions of `setReference` complete from every state, one event each. -/
theorem foldl_setReference (s : State) (level : BitVec 8) (enabled : Bool) :
    ∃ t, (setReference level enabled).foldl (fun x q => andThen x (completeHal q 0)) (.next s) = .next t
      ∧ t.periph = s.periph.setReference level enabled
      ∧ t.trace.length = s.trace.length + (setReference level enabled).length := by
  cases enabled with
  | true => exact ⟨_, rfl, rfl, by simp [setReference]⟩
  | false => exact ⟨_, rfl, rfl, by simp [setReference]⟩

/-- Settles O60: two runs of the same transactions write Peripheral State as one does. -/
theorem setReferenceIsIdempotent : Obligations.SetReferenceIsIdempotent := by
  intro s level enabled
  obtain ⟨t, hrun, hperiph, htrace⟩ := foldl_setReference s level enabled
  obtain ⟨u, hrun', hperiph', htrace'⟩ := foldl_setReference t level enabled
  refine ⟨t, u, hrun, hrun', ?_, hperiph, htrace, htrace'⟩
  rw [hperiph', hperiph, Periph.setReference_setReference]

end Sys2Proof.Machine

/-! Where lines come in and replies go out (spec/60_exceptions.md R198, R203, O52), and that no step stops
(spec/60_exceptions.md R191, R196, O55). -/

namespace Sys2Proof.Machine

section Lines

variable {s t : State} {e : Event}

/-! ### The two line channels -/

/-- R224: only WAIT's row takes a line from the host, and it takes the first one. -/
theorem ControllerRow.lines_kept_or_taken (h : ControllerRow s t) :
    t.env.lines = s.env.lines ∨ s.pc = .wait ∧ ∃ b, s.env.lines = b :: t.env.lines := by
  cases h with
  | takeLine hpc hl => exact .inr ⟨hpc, _, hl⟩
  | boot0 | boot1 | boot2 | silentHost | emptyPayload | beginCommand | assemble | transmit => exact .inl rfl
  | dropLine _ hx | enterDispatch _ hx => obtain ⟨m, wk, rfl, -⟩ := extractFrame_frame hx; exact .inl rfl
  | transaction _ _ hu =>
    obtain ⟨-, -, -, -, -, -, -, -, hlines, -⟩ := completeHal_frame hu
    exact .inl hlines
  | endDispatch => exact .inl (by simp [Machine.endDispatch])

/-- A hung step and a reset leave the host's lines alone as well (log 7). -/
theorem lines_kept_or_taken_of_step (h : step s = .next t) :
    t.env.lines = s.env.lines ∨ s.pc = .wait ∧ ∃ b, s.env.lines = b :: t.env.lines := by
  obtain ⟨-, rfl | ⟨moves, hrow⟩ | ⟨moves, -, rfl⟩⟩ := step_row h
  · exact .inl rfl
  · exact hrow.lines_kept_or_taken
  · exact .inl rfl

/-- A line event comes from WAIT or REPLY: a hung step records nothing, and a reset empties TRACE. -/
theorem line_event_of_step (h : step s = .next t) (ht : t.trace = s.trace ++ [e]) (he : e.isLine = true) :
    (s.pc = .wait ∧ ∃ b, e = .readLine b) ∨ s.pc = .reply ∧ ∃ b, e = .writeLine b := by
  obtain ⟨-, rfl | ⟨moves, hrow⟩ | ⟨moves, -, rfl⟩⟩ := step_row h
  · simp at ht
  · exact (hrow.line_event ht he).imp_right fun ⟨hpc, b, hb, _⟩ => ⟨hpc, b, hb⟩
  · simp [State.reset] at ht

/-- R235: a step keeps the host's duty, for it adds no line and changes no parameter. -/
theorem HostInv.of_step (hh : HostInv s) (h : step s = .next t) : HostInv t := by
  have hsub : t.env.lines ⊆ s.env.lines := by
    obtain hl | ⟨-, b, hl⟩ := lines_kept_or_taken_of_step h
    · rw [hl]; exact List.Subset.refl _
    · rw [hl]; exact List.subset_cons_self b _
  intro b hb
  rw [parametersNeverChange s t h]
  exact hh b (hsub hb)

/-! ### No step stops -/

/-- R224, R235: with a dutiful host WAIT goes on, whether a line comes or not. -/
theorem HostInv.waitStep_progress (hh : HostInv s) : ∃ t, waitStep s = .next t := by
  cases hl : s.env.lines with
  | nil => exact ⟨s, waitStep_of_silent hl⟩
  | cons b later => exact ⟨_, waitStep_of_deliverable hl (hh b (hl ▸ List.mem_cons_self))⟩

/-- Under the invariant and a dutiful host no row of the controller stops, WAIT's included. -/
theorem HostInv.controllerStep_progress (hh : HostInv s) (hi : MachineInv s) : ∃ t, controllerStep s = .next t := by
  by_cases hw : s.pc = .wait
  · rw [controllerStep_of_wait hw]
    exact hh.waitStep_progress
  · exact Machine.controllerStep_progress hi hw

/-- With `proceed` scheduled a machine step is a controller step, under the rest of the schedule (R225, log 7). -/
theorem step_of_proceed {moves : List EnvMove} (hc : configOk s.cfg = true)
    (hs : s.env.schedule = .proceed :: moves) : step s = controllerStep (withSchedule moves s) := by
  simp only [step, scheduledStep, hs, ifConfigured_of_ok hc]

/-- Under the invariant and a dutiful host every move of the environment leads to a next state. -/
theorem HostInv.step_progress (hh : HostInv s) (hi : MachineInv s) : ∃ t, step s = .next t := by
  obtain ⟨hc, -⟩ := id hi
  cases hs : s.env.schedule with
  | nil =>
    rw [step_eq_controllerStep hc hs]
    exact hh.controllerStep_progress hi
  | cons move moves =>
    cases move with
    | proceed =>
      rw [step_of_proceed hc hs]
      exact HostInv.controllerStep_progress (s := withSchedule moves s) hh hi
    | hang =>
      rw [step_of_hang hc hs]
      split
      · exact ⟨s, rfl⟩
      · exact hh.controllerStep_progress hi
    | reset => exact ⟨_, step_of_reset hc hs⟩

end Lines

/-- Settles O52: a line event names the control state it comes from, and the host's lines shrink in WAIT alone. -/
theorem linesOnlyInWaitRepliesOnlyInReply : Obligations.LinesOnlyInWaitRepliesOnlyInReply := by
  intro s t h
  refine ⟨fun b ht => ?_, fun b ht => ?_, fun hne => ?_⟩
  · obtain ⟨hpc, -⟩ | ⟨-, b', hb⟩ := line_event_of_step h ht rfl
    · exact hpc
    · cases hb
  · obtain ⟨-, b', hb⟩ | ⟨hpc, -⟩ := line_event_of_step h ht rfl
    · cases hb
    · exact hpc
  · obtain hkept | ⟨hpc, -⟩ := lines_kept_or_taken_of_step h
    · exact absurd hkept hne
    · exact hpc

/-- Settles O55: whatever the environment's move the step goes on, and it keeps the host's duty. -/
theorem noStepStops : Obligations.NoStepStops := by
  intro s hi hh
  obtain ⟨t, ht⟩ := hh.step_progress hi
  exact ⟨t, ht, hh.of_step ht⟩

end Sys2Proof.Machine

/-! The boot rows of the controller as machine steps (spec/70_reset_and_hazards.md R221). O20. -/

namespace Sys2Proof.Machine

/-- Settles O20: with nothing scheduled a step is a controller step, whose equation at each boot state writes out the
HAL transaction and the next control state. -/
theorem bootStepsInOrder : Obligations.BootStepsInOrder := by
  intro s hc hs
  rw [step_eq_controllerStep hc hs]
  exact ⟨controllerStep_of_boot0, controllerStep_of_boot1, controllerStep_of_boot2⟩

end Sys2Proof.Machine

/-! The canonical form of the two buffers, kept by every step whatever the lengths and the sizes are
(spec/20_memory.md section 1). O50. -/

namespace Sys2Proof.Machine

/-- A row keeps both buffers canonical: what it changes of a buffer, it writes by `Memory.setBytes`. -/
theorem ControllerRow.buffers_wf {s t : State} (h : ControllerRow s t) (hl : Memory.wf s.line) (ho : Memory.wf s.out) :
    Memory.wf t.line ∧ Memory.wf t.out := by
  cases h with
  | boot0 | boot1 | boot2 | silentHost | emptyPayload | beginCommand | transmit => exact ⟨hl, ho⟩
  | @takeLine b => exact ⟨wf_setBytes wf_nil 0 b, ho⟩
  | dropLine _ hx | enterDispatch _ hx =>
    obtain ⟨m, wk, rfl, rfl | ⟨e, rfl, -⟩, -⟩ := extractFrame_frame hx
    · exact ⟨hl, ho⟩
    · exact ⟨wf_setBytes hl e _, ho⟩
  | transaction _ _ hu =>
    obtain ⟨-, -, -, hline, -, hout, -⟩ := completeHal_frame hu
    exact ⟨hline ▸ hl, hout ▸ ho⟩
  | assemble => exact ⟨hl, wf_setBytes ho 0 (currentReply s)⟩
  | endDispatch => simpa [Machine.endDispatch] using And.intro hl ho

/-- Settles O50: a row writes canonical buffers into canonical ones, a hung step changes nothing, and a reset leaves
both buffers empty. -/
theorem buffersStayCanonical : Obligations.BuffersStayCanonical := by
  intro s t hl ho h
  obtain ⟨-, rfl | ⟨moves, hrow⟩ | ⟨moves, -, rfl⟩⟩ := step_row h
  · exact ⟨hl, ho⟩
  · exact hrow.buffers_wf hl ho
  · exact ⟨wf_nil, wf_nil⟩

end Sys2Proof.Machine
